-- ==== Sys2Proof/Word.lean ====
section
/-! DEFINITION. The word types of the block: bytes, and command words (spec/00_scope.md R11; spec/30_encoding.md R41). -/

namespace Sys2Proof

/-- An 8-bit byte of the ciphertext or of the plaintext (R31, R32). -/
abbrev Byte := BitVec 8

/-- A command word of an instance of width `w`: `CMDW = W + 8` bits (R41). -/
abbrev CmdWord (w : Nat) := BitVec (w + 8)

end Sys2Proof
end

