-- ==== Sys2Proof/Config.lean ====
section
/-! DEFINITION. What is fixed for the life of one block: the register width, and the free values of the model
(spec/00_scope.md R6, R9; spec/93_implementation_defined.md U3). -/

namespace Sys2Proof

/-- The admitted register widths: 8 or 64, fixed at build time (R6). -/
inductive Width where
  | w8
  | w64
  deriving DecidableEq, Repr

/-- The parameter `W` in bits (R6). -/
def Width.bits : Width → Nat
  | .w8 => 8
  | .w64 => 64

namespace Config

/-- Free value: what the host sees in an unwritten `TAPS`, at each width one value per draw (U3, log 7). -/
opaque freeTaps : (w : Nat) → Nat → BitVec w

/-- Free value: what the host sees in an unwritten `INIT`, at each width one value per draw (U3, log 7). -/
opaque freeInit : (w : Nat) → Nat → BitVec w

/-- Free value: what the host sees in an unwritten `KS`, one value per draw (U3, log 7). -/
opaque freeKs : Nat → Bool

/-- Free value: what the host sees in an unwritten byte of `PT`, at each index one value per draw (U3, log 7). -/
opaque freePt : Nat → Nat → Byte

end Config

end Sys2Proof
end

