-- ==== Sys2Proof/Syntax.lean ====
section
/-! DEFINITION. The five commands of the block, one constructor per row of the opcode table (spec/30_encoding.md R40). -/

namespace Sys2Proof

/-- A command (R40). The operand of `WRTAPS` and `WRINIT` is the unsigned number the host writes down (R47); that it
fits the instance's width is `Instr.wellFormed`. -/
inductive Instr where
  /-- `WRTAPS v`: write the tap configuration (R49). -/
  | wrtaps (v : Nat)
  /-- `WRINIT v`: write the initial register value (R50). -/
  | wrinit (v : Nat)
  /-- `LOAD`: reinitialise the register (R57). -/
  | load
  /-- `STEP`: advance the generator by one step (R58). -/
  | step
  /-- `DECRYPT`: run one attempt (R64). -/
  | decrypt
  deriving DecidableEq, Repr

end Sys2Proof
end

