-- ==== Sys2Proof/WellFormed.lean ====
section
/-! DEFINITION. Which commands an instance of a given width has (spec/30_encoding.md R41, R43, R47). -/

namespace Sys2Proof

/-- The operand of `WRTAPS` and `WRINIT` lies in `0 .. 2^W - 1` (R43, R47); the other commands have none. -/
def Instr.wellFormed (w : Nat) : Instr → Bool
  | .wrtaps v => decide (v < 2 ^ w)
  | .wrinit v => decide (v < 2 ^ w)
  | .load => true
  | .step => true
  | .decrypt => true

end Sys2Proof
end

