-- ==== Sys2Proof/Decode.lean ====
section
/-! DEFINITION. The decoder and the encoder of command words, and the opcode table as rows of match and mask
(spec/30_encoding.md R41 to R46; spec/opcode_table.json). -/

namespace Sys2Proof

/-- Why a word spells no command (R44). The spec has one reason. -/
inductive DecodeError where
  /-- Opcode 0x00 or 0x06 to 0xFF, or a non-zero operand field on `LOAD`, `STEP`, `DECRYPT`. -/
  | reservedEncoding
  deriving DecidableEq, Repr

/-- The `opcode` field, bits `[W+7:W]` (R41). -/
def opcodeField {w : Nat} (x : CmdWord w) : BitVec 8 := x.extractLsb' w 8

/-- The `operand` field, bits `[W-1:0]` (R41, R43). -/
def operandField {w : Nat} (x : CmdWord w) : BitVec w := x.extractLsb' 0 w

/-- The word with the given two fields (R41). -/
def commandWord {w : Nat} (opcode : BitVec 8) (operand : BitVec w) : CmdWord w :=
  (opcode.setWidth (w + 8) <<< w) ||| operand.setWidth (w + 8)

/-- The opcode of each command (R42). -/
def Instr.opcode : Instr → BitVec 8
  | .wrtaps _ => 0x01
  | .wrinit _ => 0x02
  | .load => 0x03
  | .step => 0x04
  | .decrypt => 0x05

/-- The number in the operand field of each command; zero where the command has no operand (R41). -/
def Instr.operand : Instr → Nat
  | .wrtaps v => v
  | .wrinit v => v
  | .load => 0
  | .step => 0
  | .decrypt => 0

/-- A command without an operand: the operand field must be zero (R44). -/
def decodeBare (operandIsZero : Bool) (i : Instr) : Except DecodeError Instr :=
  if operandIsZero then .ok i else .error .reservedEncoding

/-- The decoder: total, every word spells one command or none (R42, R44, R45). -/
def decode (w : Nat) (x : CmdWord w) : Except DecodeError Instr :=
  let v := operandField x
  match (opcodeField x).toNat with
  | 0x01 => .ok (.wrtaps v.toNat)
  | 0x02 => .ok (.wrinit v.toNat)
  | 0x03 => decodeBare (v == 0) .load
  | 0x04 => decodeBare (v == 0) .step
  | 0x05 => decodeBare (v == 0) .decrypt
  | _ => .error .reservedEncoding

/-- The encoder: the word of a well-formed command (R41, R42). -/
def encode (w : Nat) (i : Instr) : CmdWord w :=
  commandWord i.opcode (BitVec.ofNat w i.operand)

/-- One row of the opcode table: the match and the mask of a command at every width (R42). -/
structure OpcodeRow where
  opcode : BitVec 8
  hasOperand : Bool
  deriving DecidableEq, Repr

/-- `match = opcode << W` (R42). -/
def matchBits (w : Nat) (row : OpcodeRow) : CmdWord w := row.opcode.setWidth (w + 8) <<< w

/-- `mask = 0xFF << W` with an operand, `2^(W+8) - 1` without (R42). -/
def maskBits (w : Nat) (row : OpcodeRow) : CmdWord w :=
  if row.hasOperand then (0xFF#8).setWidth (w + 8) <<< w else BitVec.allOnes (w + 8)

/-- A word spells the command of a row when `word & mask == match` (R42). -/
def rowMatches (w : Nat) (row : OpcodeRow) (x : CmdWord w) : Bool := (x &&& maskBits w row) == matchBits w row

/-- The five rows: `WRTAPS`, `WRINIT`, `LOAD`, `STEP`, `DECRYPT` (R42). -/
def opcodeRows : List OpcodeRow :=
  [⟨0x01, true⟩, ⟨0x02, true⟩, ⟨0x03, false⟩, ⟨0x04, false⟩, ⟨0x05, false⟩]

/-- The row of a command (R42). -/
def Instr.row : Instr → OpcodeRow
  | .wrtaps _ => ⟨0x01, true⟩
  | .wrinit _ => ⟨0x02, true⟩
  | .load => ⟨0x03, false⟩
  | .step => ⟨0x04, false⟩
  | .decrypt => ⟨0x05, false⟩

/-- The width whose command words have `nbits` bits (R46). -/
def widthOfBits (nbits : Nat) : Option Width :=
  if nbits = 16 then some .w8 else if nbits = 72 then some .w64 else none

/-- The command of a table word: 16 bits are a word of `W = 8`, 72 bits a word of `W = 64`; no other length is one
of a command word (R46, log 8). The spec fixes no byte order for a word (R41): the word is the number itself. -/
def decodeTableWord (nbits w : Nat) : Option Instr :=
  match widthOfBits nbits with
  | none => none
  | some width => (decode width.bits (BitVec.ofNat (width.bits + 8) w)).toOption

end Sys2Proof
end

