-- ==== Sys2Proof/Machine/State.lean ====
section
/-! DEFINITION. The state of one block, the reasons a command can stop, and the state after reset
(spec/10_state.md; spec/60_exceptions.md R72, R75; spec/70_reset_and_hazards.md R87). -/

namespace Sys2Proof.Machine

/-- The plaintext space: address and byte pairs, addresses strictly rising. An address that is not listed is unwritten
(R13, R32). -/
abbrev Memory := List Host.Cell

/-- The registers a command can find unwritten (R75). -/
inductive DataReg where
  | taps
  | init
  | r
  deriving DecidableEq, Repr

/-- Why the machine stops with a fault. The block itself raises no exception (R72): no step reaches one. -/
inductive Fault where
  /-- Raised by the store into `PT` and by a host read of `PT` when the index is above `L`, where the spec has no byte
  (R32). Safe: the model stops, and no command forms such an index. -/
  | noSuchAddress (index : Nat)
  deriving DecidableEq, Repr

/-- Why a command has no meaning (R75). -/
inductive Refusal where
  /-- Raised by `step` for a word that spells no command (R44, R75). Safe: a real block would do something. -/
  | reservedEncoding
  /-- Raised by `LOAD`, `STEP` and `DECRYPT` when a register they need is unwritten, where the spec itself refuses the
  command and gives it no meaning (R13, R57, R58, R64, R75, R76). Safe: nothing can be proved of such a run. -/
  | unwrittenRegister (reg : DataReg)
  /-- Raised by `WRTAPS` and `WRINIT` for an operand of `2^W` or more, which no word spells and which R47 calls an
  assembly error (log 5). Safe: no step reaches it. -/
  | operandOutOfRange
  /-- Raised by an arm of `exec` whose command has no meaning yet. Safe: nothing can be proved of it. No arm does. -/
  | notModelled (mnemonic : String)
  deriving DecidableEq, Repr

/-- One block of width `w` (10_state.md section 1). A register or flag that is `none` is `unwritten` (R13, log 4). -/
structure Block (w : Nat) where
  /-- `CT`: the ciphertext, `L` bytes; a parameter that no command writes (R8, R31, log 1). -/
  ct : List Byte
  /-- `TAPS`: the tap configuration (R14). -/
  taps : Option (BitVec w)
  /-- `INIT`: the initial register value (R15). -/
  init : Option (BitVec w)
  /-- `R`: the live shift register (R16). -/
  r : Option (BitVec w)
  /-- `KS`: the keystream bit of the last `STEP` (R17). -/
  ks : Option Bool
  /-- `ACC`: the last `DECRYPT` accepted its candidate (R18). -/
  acc : Bool
  /-- `VALID`: `PT`, `ACC` and `IDX` belong to the current `TAPS` and `INIT` (R19). -/
  valid : Bool
  /-- `IDX`: how many plaintext bytes the last `DECRYPT` computed (R21). -/
  idx : Nat
  /-- `PT[0 .. L]`: the candidate plaintext and its terminator (R23, R32). -/
  pt : Memory
  /-- The command words the host will issue, first one first: the model's own field, not the spec's (log 3). -/
  input : List (CmdWord w)
  deriving DecidableEq, Repr

/-- The state of one instance: its width, fixed at build time (R6, log 1), and its block. -/
structure State where
  width : Width
  block : Block width.bits
  deriving DecidableEq, Repr

/-- What a command or a step of the machine answers. -/
abbrev Answer (α : Type) := Host.Outcome α Fault Refusal

/-- The block right after reset: everything unwritten, the flags 0 (R87), with the ciphertext the host supplied (R31)
and no command issued. -/
def resetBlock (w : Nat) (ct : List Byte) : Block w :=
  { ct := ct, taps := none, init := none, r := none, ks := none, acc := false, valid := false, idx := 0, pt := [],
    input := [] }

/-- An instance of the given width and ciphertext right after reset (R87, R88). -/
def State.resetOf (width : Width) (ct : List Byte) : State :=
  { width := width, block := resetBlock width.bits ct }

/-- The reset state of the instance with `W = 8` and the empty ciphertext: the spec leaves `W` and `CT` open (92 P1
to P3), the choice is the model's (log 2). -/
def State.reset : State := State.resetOf .w8 []

/-- `L`: the length of the ciphertext in bytes (R7). -/
def Block.len {w : Nat} (b : Block w) : Nat := b.ct.length

end Sys2Proof.Machine
end

