-- ==== Sys2Proof/Machine/Ops.lean ====
section
/-! DEFINITION. The named operations over the block's memory and registers. The block raises no exception and has no trap
entry and no trap return (spec/60_exceptions.md R72, R77): its one shared way to stop a command is the refusal of a
command that needs an unwritten register (R75). -/

namespace Sys2Proof.Machine

/-- The byte at an address of `PT`, `none` where it is unwritten (R13, R32). -/
def Memory.read : Memory → Nat → Option Byte
  | [], _ => none
  | (a, v) :: m, i => if a = i then some v else Memory.read m i

/-- Write one byte, keeping the addresses strictly rising (R32, R36). -/
def Memory.write : Memory → Nat → Byte → Memory
  | [], i, v => [(i, v)]
  | (a, u) :: m, i, v =>
    if i < a then (i, v) :: (a, u) :: m
    else if i = a then (i, v) :: m
    else (a, u) :: Memory.write m i v

/-- The canonical form: addresses strictly rising. Nothing else is asked, since an unlisted address holds no byte. -/
def Memory.wf : Memory → Bool
  | [] => true
  | (a, _) :: m => m.all (fun c => decide (a < c.1)) && Memory.wf m

/-- Write the bytes one after another from an address on. -/
def Memory.writeFrom : Memory → Nat → List Byte → Memory
  | m, _, [] => m
  | m, i, v :: vs => Memory.writeFrom (Memory.write m i v) (i + 1) vs

/-- Go on from a next state; a fault or a refusal stays. -/
def andThen {α β : Type} (o : Answer α) (k : α → Answer β) : Answer β :=
  match o with
  | .next a => k a
  | .fault f => .fault f
  | .refused r => .refused r

/-- Use the value of a register, or refuse the command when the register is unwritten: the spec's own
`refuse(UnwrittenRegister …)` in the pseudocode of R57, R58 and R64, by R13 and R75. -/
def need {α β : Type} (held : Option α) (reg : DataReg) (k : α → Answer β) : Answer β :=
  match held with
  | some v => k v
  | none => .refused (.unwrittenRegister reg)

/-- Run a meaning on the block of an instance; its width stays (R6). -/
def State.onBlock (s : State) (f : Block s.width.bits → Answer (Block s.width.bits)) : Answer State :=
  andThen (f s.block) fun b => .next { width := s.width, block := b }

/-- `TAPS <- v` (R14). -/
def Block.setTaps {w : Nat} (b : Block w) (v : BitVec w) : Block w := { b with taps := some v }

/-- `INIT <- v` (R15). -/
def Block.setInit {w : Nat} (b : Block w) (v : BitVec w) : Block w := { b with init := some v }

/-- `R <- v` (R16). -/
def Block.setR {w : Nat} (b : Block w) (v : BitVec w) : Block w := { b with r := some v }

/-- `KS <- f` (R17). -/
def Block.setKs {w : Nat} (b : Block w) (f : Bool) : Block w := { b with ks := some f }

/-- `ACC <- f` (R18). -/
def Block.setAcc {w : Nat} (b : Block w) (f : Bool) : Block w := { b with acc := f }

/-- `VALID <- f` (R19). -/
def Block.setValid {w : Nat} (b : Block w) (f : Bool) : Block w := { b with valid := f }

/-- `IDX <- n` (R21). -/
def Block.setIdx {w : Nat} (b : Block w) (n : Nat) : Block w := { b with idx := n }

/-- Replace the plaintext space; used by the store operation alone (R32). -/
def Block.setPt {w : Nat} (b : Block w) (m : Memory) : Block w := { b with pt := m }

/-- Replace the host's remaining command words (log 3). -/
def Block.setInput {w : Nat} (b : Block w) (xs : List (CmdWord w)) : Block w := { b with input := xs }

/-- `MemWrite(PT:i, 1, v)`: the byte indices of `PT` are `0 .. L`; no other index exists (R32, R36). -/
def storePt {w : Nat} (i : Nat) (v : Byte) (b : Block w) : Answer (Block w) :=
  if i ≤ b.len then .next (b.setPt (Memory.write b.pt i v)) else .fault (.noSuchAddress i)

/-- Store the bytes at `PT[i], PT[i+1], …` in ascending order (R64, R70). -/
def storePtFrom {w : Nat} : Nat → List Byte → Block w → Answer (Block w)
  | _, [], b => .next b
  | i, v :: vs, b => andThen (storePt i v b) (storePtFrom (i + 1) vs)

/-- The reset event, applied to one instance from outside: every piece of the block's state takes its reset value
(R87); the width, the ciphertext (R88) and the words the host has yet to issue (log 3) stay. -/
def State.applyReset (s : State) : State :=
  { width := s.width, block := (resetBlock s.width.bits s.block.ct).setInput s.block.input }

end Sys2Proof.Machine
end

