-- ==== Sys2Proof/Machine/Operands.lean ====
section
/-! DEFINITION. The one operand form of the block: the unsigned `W`-bit operand field (spec/30_encoding.md R43, R47). -/

namespace Sys2Proof.Machine

/-- The `W`-bit value of an operand, taken as it stands (R43); a number of `2^W` or more is no operand and is not
truncated (R47). -/
def operandValue (w : Nat) (v : Nat) : Option (BitVec w) :=
  if v < 2 ^ w then some (BitVec.ofNat w v) else none

/-- Use the operand's value; an operand that no word spells is refused (log 5). -/
def withOperand {β : Type} (w : Nat) (v : Nat) (k : BitVec w → Answer β) : Answer β :=
  match operandValue w v with
  | some x => k x
  | none => .refused .operandOutOfRange

end Sys2Proof.Machine
end

