-- ==== Sys2Proof/Machine/Flags.lean ====
section
/-! DEFINITION. The bits the block computes: the feedback parity, which becomes `KS` (spec/41_lfsr.md R52, R53), and the
printability filter, which decides `ACC` (spec/42_decrypt.md R61). -/

namespace Sys2Proof.Machine

/-- The number of bits of `v` among bits `0 .. n-1` that are 1. -/
def countOnes {w : Nat} (v : BitVec w) : Nat → Nat
  | 0 => 0
  | n + 1 => countOnes v n + (v.getLsbD n).toNat

/-- `popcount(v)`: the number of bits of `v` that are 1 (00_scope.md R11). -/
def popcount {w : Nat} (v : BitVec w) : Nat := countOnes v w

/-- `parity(v) = popcount(v) mod 2` (R52). -/
def parity {w : Nat} (v : BitVec w) : Bool := popcount v % 2 == 1

/-- `feedback(r, t) = parity(r & t)` (R52). -/
def feedback {w : Nat} (r t : BitVec w) : Bool := parity (r &&& t)

/-- The XOR of bits `0 .. n-1` of `x`: the loop of `bit_fold` (R53). -/
def xorBits {w : Nat} (x : BitVec w) : Nat → Bool
  | 0 => false
  | n + 1 => xorBits x n ^^ x.getLsbD n

/-- `bit_fold(x)`: the XOR of all bits, one by one (R53). -/
def bitFold {w : Nat} (x : BitVec w) : Bool := xorBits x w

/-- The XOR of bytes `0 .. n-1` of `x`: the first loop of `byte_fold` (R53). -/
def xorBytes {w : Nat} (x : BitVec w) : Nat → Byte
  | 0 => 0x00
  | n + 1 => xorBytes x n ^^^ x.extractLsb' (8 * n) 8

/-- `byte_fold(x)`, for a width that is a multiple of 8 (R53). -/
def byteFold {w : Nat} (x : BitVec w) : Bool :=
  let b0 := xorBytes x (w / 8)
  let b1 := b0 ^^^ (b0 >>> 4)
  let b2 := b1 ^^^ (b1 >>> 2)
  let b3 := b2 ^^^ (b2 >>> 1)
  b3.getLsbD 0

/-- The loop of `word_fold`: shifts `2^(k-1), …, 2, 1` (R53). -/
def wordFoldShifts {w : Nat} : Nat → BitVec w → BitVec w
  | 0, x => x
  | k + 1, x => wordFoldShifts k (x ^^^ (x >>> (2 ^ k)))

/-- `word_fold(x)`, for a width that is a power of two, `W = 2^k` (R53). -/
def wordFold (k : Nat) {w : Nat} (x : BitVec w) : Bool := (wordFoldShifts k x).getLsbD 0

/-- `acceptable(b)`: visible 7-bit ASCII, carriage return, line feed or the null byte, by unsigned comparison (R61). -/
def acceptable (b : Byte) : Bool :=
  (decide (0x20 ≤ b.toNat) && decide (b.toNat < 0x7F)) || b == 0x0D || b == 0x0A || b == 0x00

end Sys2Proof.Machine
end

