-- ==== Sys2Proof/Machine/Configure.lean ====
section
/-! DEFINITION. The configuration commands `WRTAPS` and `WRINIT` (spec/40_config.md R49, R50). -/

namespace Sys2Proof.Machine

/-- `WRTAPS v`: `TAPS <- v; VALID <- 0` (R49). -/
def execWrtaps (v : Nat) (s : State) : Answer State :=
  s.onBlock fun b => withOperand s.width.bits v fun x => .next ((b.setTaps x).setValid false)

/-- `WRINIT v`: `INIT <- v; VALID <- 0` (R50). -/
def execWrinit (v : Nat) (s : State) : Answer State :=
  s.onBlock fun b => withOperand s.width.bits v fun x => .next ((b.setInit x).setValid false)

end Sys2Proof.Machine
end

