-- ==== Sys2Proof/Machine/Lfsr.lean ====
section
/-! DEFINITION. The LFSR keystream generator and its commands `LOAD` and `STEP` (spec/41_lfsr.md R54 to R60). -/

namespace Sys2Proof.Machine

/-- `lfsr_step(r, t)`: shift right by one, the feedback bit enters bit `W-1` (R54). -/
def lfsrStep {w : Nat} (r t : BitVec w) : BitVec w × Bool :=
  let f := feedback r t
  ((r >>> 1) ||| ((BitVec.ofBool f).setWidth w <<< (w - 1)), f)

/-- `lfsr_run(r, t, n)`: `n` steps with one tap mask; the last register and the keystream bits in order (R60). -/
def lfsrRun {w : Nat} (r t : BitVec w) : Nat → BitVec w × List Bool
  | 0 => (r, [])
  | n + 1 =>
    let before := lfsrRun r t n
    let after := lfsrStep before.1 t
    (after.1, before.2 ++ [after.2])

/-- `LOAD`: `R <- INIT` (R57). -/
def execLoad (s : State) : Answer State :=
  s.onBlock fun b => need b.init .init fun v => .next (b.setR v)

/-- `STEP`: `(R, KS) <- lfsr_step(R, TAPS)` (R58). -/
def execStep (s : State) : Answer State :=
  s.onBlock fun b => need b.r .r fun r => need b.taps .taps fun t =>
    .next ((b.setR (lfsrStep r t).1).setKs (lfsrStep r t).2)

end Sys2Proof.Machine
end

