-- ==== Sys2Proof/Machine/Decrypt.lean ====
section
/-! DEFINITION. The decryption filter and its command `DECRYPT` (spec/42_decrypt.md R62 to R70). -/

namespace Sys2Proof.Machine

/-- The sentinel written at `PT[L]` (00_scope.md R9). -/
def sentinel : Byte := 0x00

/-- The bit steps of one byte, most significant bit first (R62). -/
def bitSteps : List Nat := [0, 1, 2, 3, 4, 5, 6, 7]

/-- One pass of the bit loop of `recover_byte`: the register and the output byte after bit step `j` (R62). -/
def recoverBit {w : Nat} (t : BitVec w) (c : Byte) (st : BitVec w × Byte) (j : Nat) : BitVec w × Byte :=
  let r := (lfsrStep st.1 t).1
  let k := r.getLsbD (w - 1)
  let p := k ^^ c.getLsbD (7 - j)
  (r, st.2 ||| ((BitVec.ofBool p).setWidth 8 <<< (7 - j)))

/-- `recover_byte(r, t, c)`: the register after 8 steps and the output byte, assembled from 0x00 (R62, R92). -/
def recoverByte {w : Nat} (r t : BitVec w) (c : Byte) : BitVec w × Byte :=
  bitSteps.foldl (recoverBit t c) (r, 0x00)

/-- The byte loop of an attempt from register `r` on: the bytes computed, the rejected one among them; whether all of
them passed the filter; the last register (R63, R68). -/
def scan {w : Nat} (t : BitVec w) : List Byte → BitVec w → List Byte × Bool × BitVec w
  | [], r => ([], true, r)
  | c :: cs, r =>
    let out := recoverByte r t c
    if acceptable out.2 then
      let rest := scan t cs out.1
      (out.2 :: rest.1, rest.2.1, rest.2.2)
    else ([out.2], false, out.1)

/-- The result of an attempt (R63). -/
structure Attempt (w : Nat) where
  pt : List Byte
  acc : Bool
  idx : Nat
  rEnd : BitVec w
  deriving DecidableEq, Repr

/-- `decrypt(CT, init, taps)`: the tail that was not computed is zero, the sentinel stands at index `L` (R63). -/
def decrypt {w : Nat} (ct : List Byte) (init taps : BitVec w) : Attempt w :=
  let out := scan taps ct init
  { pt := out.1 ++ List.replicate (ct.length - out.1.length) 0x00 ++ [sentinel],
    acc := out.2.1,
    idx := out.1.length,
    rEnd := out.2.2 }

/-- The byte loop without the early exit: every byte and the last register (R66). -/
def scanFull {w : Nat} (t : BitVec w) : List Byte → BitVec w → List Byte × BitVec w
  | [], r => ([], r)
  | c :: cs, r =>
    let out := recoverByte r t c
    let rest := scanFull t cs out.1
    (out.2 :: rest.1, rest.2)

/-- `full(CT, init, taps)`: rule R63 without the abort (R66). -/
def decryptFull {w : Nat} (ct : List Byte) (init taps : BitVec w) : Attempt w :=
  let out := scanFull taps ct init
  { pt := out.1 ++ [sentinel], acc := out.1.all acceptable, idx := ct.length, rEnd := out.2 }

/-- The byte whose bits, bit 7 first, are the given ones (R62, R67). -/
def byteOfBits (bs : List Bool) : Byte :=
  bs.foldl (fun b f => (b <<< 1) ||| (BitVec.ofBool f).setWidth 8) 0x00

/-- `K_i`: the keystream byte of `(init, taps)` formed from feedback bits `8i+1 .. 8i+8`, the first in bit 7 (R67). -/
def keystreamByte {w : Nat} (init taps : BitVec w) (i : Nat) : Byte :=
  byteOfBits ((lfsrRun init taps (8 * i + 8)).2.drop (8 * i))

/-- `DECRYPT`: one attempt with the current `TAPS` and `INIT`; all of `PT` is written, then `R`, `ACC`, `IDX` and `VALID`
(R64). -/
def execDecrypt (s : State) : Answer State :=
  s.onBlock fun b => need b.init .init fun iv => need b.taps .taps fun t =>
    andThen (storePtFrom 0 (decrypt b.ct iv t).pt b) fun b' =>
      .next ((((b'.setR (decrypt b.ct iv t).rEnd).setAcc (decrypt b.ct iv t).acc).setIdx (decrypt b.ct iv t).idx).setValid
        true)

end Sys2Proof.Machine
end

