-- ==== Sys2Proof/Machine/Dispatch.lean ====
section
/-! DEFINITION. One arm per command (spec/30_encoding.md R40). -/

namespace Sys2Proof.Machine

-- each arm is one direct call of the command's own meaning
def exec (i : Instr) (s : State) : Host.Outcome State Fault Refusal :=
  match i with
  | .wrtaps v => Sys2Proof.Machine.execWrtaps v s
  | .wrinit v => Sys2Proof.Machine.execWrinit v s
  | .load => Sys2Proof.Machine.execLoad s
  | .step => Sys2Proof.Machine.execStep s
  | .decrypt => Sys2Proof.Machine.execDecrypt s

end Sys2Proof.Machine
end

