-- ==== Sys2Proof/Machine/Fetch.lean ====
section
/-! DEFINITION. How a command word reaches the block: the host issues it (spec/10_state.md R22, R27; log 3). -/

namespace Sys2Proof.Machine

/-- The state once the host's next word has been taken; the other words wait in order (R38, log 3). -/
def State.afterTaking (s : State) (rest : List (CmdWord s.width.bits)) : State :=
  { width := s.width, block := s.block.setInput rest }

/-- The host issues one more word, before those that wait (log 3). -/
def State.issueFirst (s : State) (x : CmdWord s.width.bits) : State :=
  { width := s.width, block := s.block.setInput (x :: s.block.input) }

/-- Perform one command word: the decoder's check comes first, then the command's own (R76). -/
def performWord {w : Nat} (x : CmdWord w) (s : State) : Answer State :=
  match decode w x with
  | .error .reservedEncoding => .refused .reservedEncoding
  | .ok i => exec i s

/-- Take and perform the host's next command word; with no word issued nothing happens (R12, R90, log 3). -/
def stepInput (s : State) : List (CmdWord s.width.bits) → Answer State
  | [] => .next s
  | x :: rest => performWord x (s.afterTaking rest)

/-- The word of `nbits` bits whose number is `x`, issued as the very next command (log 3, log 8). A word built for one
width is not a word of the other (R46): where `nbits` is not the length `W + 8` of this instance's words, there is no such
word and none is issued. -/
def issueTableWord (s : State) (nbits x : Nat) : State :=
  if widthOfBits nbits = some s.width then s.issueFirst (BitVec.ofNat (s.width.bits + 8) x) else s

end Sys2Proof.Machine
end

