-- ==== Sys2Proof/Machine/Step.lean ====
section
/-! DEFINITION. One step of an instance: the host's next command word is decoded and performed, atomically
(spec/00_scope.md R12; spec/20_memory.md R38; spec/60_exceptions.md R76). -/

namespace Sys2Proof.Machine

/-- One step. -/
def step (s : State) : Host.Outcome State Fault Refusal := stepInput s s.block.input

/-- The state in which the given word is the next command of the host; unchanged where the word has not the length of
the instance's words (R46, log 3, log 8). -/
def State.withFetchWord (s : State) (nbits w : Nat) : State := issueTableWord s nbits w

end Sys2Proof.Machine
end

