-- ==== Sys2Proof/Laws/State.lean ====
section
/-! SUPPORT. One lemma per field per update of the block, and the projections of an instance. -/

namespace Sys2Proof.Machine

section

variable {w : Nat} (b : Block w)

@[simp] theorem Block.setTaps_ct (v : BitVec w) : (b.setTaps v).ct = b.ct := rfl
@[simp] theorem Block.setTaps_taps (v : BitVec w) : (b.setTaps v).taps = some v := rfl
@[simp] theorem Block.setTaps_init (v : BitVec w) : (b.setTaps v).init = b.init := rfl
@[simp] theorem Block.setTaps_r (v : BitVec w) : (b.setTaps v).r = b.r := rfl
@[simp] theorem Block.setTaps_ks (v : BitVec w) : (b.setTaps v).ks = b.ks := rfl
@[simp] theorem Block.setTaps_acc (v : BitVec w) : (b.setTaps v).acc = b.acc := rfl
@[simp] theorem Block.setTaps_valid (v : BitVec w) : (b.setTaps v).valid = b.valid := rfl
@[simp] theorem Block.setTaps_idx (v : BitVec w) : (b.setTaps v).idx = b.idx := rfl
@[simp] theorem Block.setTaps_pt (v : BitVec w) : (b.setTaps v).pt = b.pt := rfl
@[simp] theorem Block.setTaps_input (v : BitVec w) : (b.setTaps v).input = b.input := rfl
@[simp] theorem Block.setTaps_len (v : BitVec w) : (b.setTaps v).len = b.len := rfl

@[simp] theorem Block.setInit_ct (v : BitVec w) : (b.setInit v).ct = b.ct := rfl
@[simp] theorem Block.setInit_taps (v : BitVec w) : (b.setInit v).taps = b.taps := rfl
@[simp] theorem Block.setInit_init (v : BitVec w) : (b.setInit v).init = some v := rfl
@[simp] theorem Block.setInit_r (v : BitVec w) : (b.setInit v).r = b.r := rfl
@[simp] theorem Block.setInit_ks (v : BitVec w) : (b.setInit v).ks = b.ks := rfl
@[simp] theorem Block.setInit_acc (v : BitVec w) : (b.setInit v).acc = b.acc := rfl
@[simp] theorem Block.setInit_valid (v : BitVec w) : (b.setInit v).valid = b.valid := rfl
@[simp] theorem Block.setInit_idx (v : BitVec w) : (b.setInit v).idx = b.idx := rfl
@[simp] theorem Block.setInit_pt (v : BitVec w) : (b.setInit v).pt = b.pt := rfl
@[simp] theorem Block.setInit_input (v : BitVec w) : (b.setInit v).input = b.input := rfl
@[simp] theorem Block.setInit_len (v : BitVec w) : (b.setInit v).len = b.len := rfl

@[simp] theorem Block.setR_ct (v : BitVec w) : (b.setR v).ct = b.ct := rfl
@[simp] theorem Block.setR_taps (v : BitVec w) : (b.setR v).taps = b.taps := rfl
@[simp] theorem Block.setR_init (v : BitVec w) : (b.setR v).init = b.init := rfl
@[simp] theorem Block.setR_r (v : BitVec w) : (b.setR v).r = some v := rfl
@[simp] theorem Block.setR_ks (v : BitVec w) : (b.setR v).ks = b.ks := rfl
@[simp] theorem Block.setR_acc (v : BitVec w) : (b.setR v).acc = b.acc := rfl
@[simp] theorem Block.setR_valid (v : BitVec w) : (b.setR v).valid = b.valid := rfl
@[simp] theorem Block.setR_idx (v : BitVec w) : (b.setR v).idx = b.idx := rfl
@[simp] theorem Block.setR_pt (v : BitVec w) : (b.setR v).pt = b.pt := rfl
@[simp] theorem Block.setR_input (v : BitVec w) : (b.setR v).input = b.input := rfl
@[simp] theorem Block.setR_len (v : BitVec w) : (b.setR v).len = b.len := rfl

@[simp] theorem Block.setKs_ct (f : Bool) : (b.setKs f).ct = b.ct := rfl
@[simp] theorem Block.setKs_taps (f : Bool) : (b.setKs f).taps = b.taps := rfl
@[simp] theorem Block.setKs_init (f : Bool) : (b.setKs f).init = b.init := rfl
@[simp] theorem Block.setKs_r (f : Bool) : (b.setKs f).r = b.r := rfl
@[simp] theorem Block.setKs_ks (f : Bool) : (b.setKs f).ks = some f := rfl
@[simp] theorem Block.setKs_acc (f : Bool) : (b.setKs f).acc = b.acc := rfl
@[simp] theorem Block.setKs_valid (f : Bool) : (b.setKs f).valid = b.valid := rfl
@[simp] theorem Block.setKs_idx (f : Bool) : (b.setKs f).idx = b.idx := rfl
@[simp] theorem Block.setKs_pt (f : Bool) : (b.setKs f).pt = b.pt := rfl
@[simp] theorem Block.setKs_input (f : Bool) : (b.setKs f).input = b.input := rfl
@[simp] theorem Block.setKs_len (f : Bool) : (b.setKs f).len = b.len := rfl

@[simp] theorem Block.setAcc_ct (f : Bool) : (b.setAcc f).ct = b.ct := rfl
@[simp] theorem Block.setAcc_taps (f : Bool) : (b.setAcc f).taps = b.taps := rfl
@[simp] theorem Block.setAcc_init (f : Bool) : (b.setAcc f).init = b.init := rfl
@[simp] theorem Block.setAcc_r (f : Bool) : (b.setAcc f).r = b.r := rfl
@[simp] theorem Block.setAcc_ks (f : Bool) : (b.setAcc f).ks = b.ks := rfl
@[simp] theorem Block.setAcc_acc (f : Bool) : (b.setAcc f).acc = f := rfl
@[simp] theorem Block.setAcc_valid (f : Bool) : (b.setAcc f).valid = b.valid := rfl
@[simp] theorem Block.setAcc_idx (f : Bool) : (b.setAcc f).idx = b.idx := rfl
@[simp] theorem Block.setAcc_pt (f : Bool) : (b.setAcc f).pt = b.pt := rfl
@[simp] theorem Block.setAcc_input (f : Bool) : (b.setAcc f).input = b.input := rfl
@[simp] theorem Block.setAcc_len (f : Bool) : (b.setAcc f).len = b.len := rfl

@[simp] theorem Block.setValid_ct (f : Bool) : (b.setValid f).ct = b.ct := rfl
@[simp] theorem Block.setValid_taps (f : Bool) : (b.setValid f).taps = b.taps := rfl
@[simp] theorem Block.setValid_init (f : Bool) : (b.setValid f).init = b.init := rfl
@[simp] theorem Block.setValid_r (f : Bool) : (b.setValid f).r = b.r := rfl
@[simp] theorem Block.setValid_ks (f : Bool) : (b.setValid f).ks = b.ks := rfl
@[simp] theorem Block.setValid_acc (f : Bool) : (b.setValid f).acc = b.acc := rfl
@[simp] theorem Block.setValid_valid (f : Bool) : (b.setValid f).valid = f := rfl
@[simp] theorem Block.setValid_idx (f : Bool) : (b.setValid f).idx = b.idx := rfl
@[simp] theorem Block.setValid_pt (f : Bool) : (b.setValid f).pt = b.pt := rfl
@[simp] theorem Block.setValid_input (f : Bool) : (b.setValid f).input = b.input := rfl
@[simp] theorem Block.setValid_len (f : Bool) : (b.setValid f).len = b.len := rfl

@[simp] theorem Block.setIdx_ct (n : Nat) : (b.setIdx n).ct = b.ct := rfl
@[simp] theorem Block.setIdx_taps (n : Nat) : (b.setIdx n).taps = b.taps := rfl
@[simp] theorem Block.setIdx_init (n : Nat) : (b.setIdx n).init = b.init := rfl
@[simp] theorem Block.setIdx_r (n : Nat) : (b.setIdx n).r = b.r := rfl
@[simp] theorem Block.setIdx_ks (n : Nat) : (b.setIdx n).ks = b.ks := rfl
@[simp] theorem Block.setIdx_acc (n : Nat) : (b.setIdx n).acc = b.acc := rfl
@[simp] theorem Block.setIdx_valid (n : Nat) : (b.setIdx n).valid = b.valid := rfl
@[simp] theorem Block.setIdx_idx (n : Nat) : (b.setIdx n).idx = n := rfl
@[simp] theorem Block.setIdx_pt (n : Nat) : (b.setIdx n).pt = b.pt := rfl
@[simp] theorem Block.setIdx_input (n : Nat) : (b.setIdx n).input = b.input := rfl
@[simp] theorem Block.setIdx_len (n : Nat) : (b.setIdx n).len = b.len := rfl

@[simp] theorem Block.setPt_ct (m : Memory) : (b.setPt m).ct = b.ct := rfl
@[simp] theorem Block.setPt_taps (m : Memory) : (b.setPt m).taps = b.taps := rfl
@[simp] theorem Block.setPt_init (m : Memory) : (b.setPt m).init = b.init := rfl
@[simp] theorem Block.setPt_r (m : Memory) : (b.setPt m).r = b.r := rfl
@[simp] theorem Block.setPt_ks (m : Memory) : (b.setPt m).ks = b.ks := rfl
@[simp] theorem Block.setPt_acc (m : Memory) : (b.setPt m).acc = b.acc := rfl
@[simp] theorem Block.setPt_valid (m : Memory) : (b.setPt m).valid = b.valid := rfl
@[simp] theorem Block.setPt_idx (m : Memory) : (b.setPt m).idx = b.idx := rfl
@[simp] theorem Block.setPt_pt (m : Memory) : (b.setPt m).pt = m := rfl
@[simp] theorem Block.setPt_input (m : Memory) : (b.setPt m).input = b.input := rfl
@[simp] theorem Block.setPt_len (m : Memory) : (b.setPt m).len = b.len := rfl

@[simp] theorem Block.setInput_ct (xs : List (CmdWord w)) : (b.setInput xs).ct = b.ct := rfl
@[simp] theorem Block.setInput_taps (xs : List (CmdWord w)) : (b.setInput xs).taps = b.taps := rfl
@[simp] theorem Block.setInput_init (xs : List (CmdWord w)) : (b.setInput xs).init = b.init := rfl
@[simp] theorem Block.setInput_r (xs : List (CmdWord w)) : (b.setInput xs).r = b.r := rfl
@[simp] theorem Block.setInput_ks (xs : List (CmdWord w)) : (b.setInput xs).ks = b.ks := rfl
@[simp] theorem Block.setInput_acc (xs : List (CmdWord w)) : (b.setInput xs).acc = b.acc := rfl
@[simp] theorem Block.setInput_valid (xs : List (CmdWord w)) : (b.setInput xs).valid = b.valid := rfl
@[simp] theorem Block.setInput_idx (xs : List (CmdWord w)) : (b.setInput xs).idx = b.idx := rfl
@[simp] theorem Block.setInput_pt (xs : List (CmdWord w)) : (b.setInput xs).pt = b.pt := rfl
@[simp] theorem Block.setInput_input (xs : List (CmdWord w)) : (b.setInput xs).input = xs := rfl
@[simp] theorem Block.setInput_len (xs : List (CmdWord w)) : (b.setInput xs).len = b.len := rfl

end

section

variable (s : State)

@[simp] theorem State.afterTaking_width (rest : List (CmdWord s.width.bits)) : (s.afterTaking rest).width = s.width := rfl
@[simp] theorem State.afterTaking_block (rest : List (CmdWord s.width.bits)) :
    (s.afterTaking rest).block = s.block.setInput rest := rfl
@[simp] theorem State.issueFirst_width (x : CmdWord s.width.bits) : (s.issueFirst x).width = s.width := rfl
@[simp] theorem State.issueFirst_block (x : CmdWord s.width.bits) :
    (s.issueFirst x).block = s.block.setInput (x :: s.block.input) := rfl
@[simp] theorem State.applyReset_width : s.applyReset.width = s.width := rfl
@[simp] theorem State.applyReset_block :
    s.applyReset.block = (resetBlock s.width.bits s.block.ct).setInput s.block.input := rfl

end

@[simp] theorem resetBlock_ct (w : Nat) (ct : List Byte) : (resetBlock w ct).ct = ct := rfl
@[simp] theorem resetBlock_taps (w : Nat) (ct : List Byte) : (resetBlock w ct).taps = none := rfl
@[simp] theorem resetBlock_init (w : Nat) (ct : List Byte) : (resetBlock w ct).init = none := rfl
@[simp] theorem resetBlock_r (w : Nat) (ct : List Byte) : (resetBlock w ct).r = none := rfl
@[simp] theorem resetBlock_ks (w : Nat) (ct : List Byte) : (resetBlock w ct).ks = none := rfl
@[simp] theorem resetBlock_acc (w : Nat) (ct : List Byte) : (resetBlock w ct).acc = false := rfl
@[simp] theorem resetBlock_valid (w : Nat) (ct : List Byte) : (resetBlock w ct).valid = false := rfl
@[simp] theorem resetBlock_idx (w : Nat) (ct : List Byte) : (resetBlock w ct).idx = 0 := rfl
@[simp] theorem resetBlock_pt (w : Nat) (ct : List Byte) : (resetBlock w ct).pt = [] := rfl
@[simp] theorem resetBlock_input (w : Nat) (ct : List Byte) : (resetBlock w ct).input = [] := rfl
@[simp] theorem resetBlock_len (w : Nat) (ct : List Byte) : (resetBlock w ct).len = ct.length := rfl

end Sys2Proof.Machine
end

