-- ==== Sys2Proof/Laws/Memory.lean ====
section
/-! SUPPORT. The laws of the plaintext space: a read after a write, and the canonical form every operation keeps. -/

namespace Sys2Proof.Machine

theorem Memory.read_write_same (m : Memory) (i : Nat) (v : Byte) : Memory.read (Memory.write m i v) i = some v := by
  induction m with
  | nil => simp [Memory.write, Memory.read]
  | cons c m ih =>
    obtain ⟨a, u⟩ := c
    by_cases hlt : i < a
    · simp [Memory.write, Memory.read, hlt]
    · by_cases heq : i = a
      · simp [Memory.write, Memory.read, heq]
      · simp [Memory.write, Memory.read, hlt, heq, Ne.symm heq, ih]

theorem Memory.read_write_other (m : Memory) {i j : Nat} (v : Byte) (h : j ≠ i) :
    Memory.read (Memory.write m i v) j = Memory.read m j := by
  induction m with
  | nil => simp [Memory.write, Memory.read, Ne.symm h]
  | cons c m ih =>
    obtain ⟨a, u⟩ := c
    by_cases hlt : i < a
    · simp [Memory.write, Memory.read, hlt, Ne.symm h]
    · by_cases heq : i = a
      · subst heq
        simp [Memory.write, Memory.read, Ne.symm h]
      · simp [Memory.write, Memory.read, hlt, heq, ih]

/-- Every entry after a write was there before or is the written one. -/
theorem Memory.mem_write {m : Memory} {i : Nat} {v : Byte} {c : Host.Cell} (h : c ∈ Memory.write m i v) :
    c ∈ m ∨ c = (i, v) := by
  induction m with
  | nil => simpa [Memory.write] using h
  | cons d m ih =>
    obtain ⟨a, u⟩ := d
    unfold Memory.write at h
    split at h
    · rcases List.mem_cons.1 h with h | h
      · exact .inr h
      · exact .inl h
    · split at h
      · rcases List.mem_cons.1 h with h | h
        · exact .inr h
        · exact .inl (List.mem_cons_of_mem _ h)
      · rcases List.mem_cons.1 h with h | h
        · exact .inl (h ▸ List.mem_cons_self)
        · exact (ih h).imp_left (List.mem_cons_of_mem _)

theorem Memory.wf_cons {a : Nat} {u : Byte} {m : Memory} :
    Memory.wf ((a, u) :: m) = true ↔ (∀ c ∈ m, a < c.1) ∧ Memory.wf m = true := by
  simp [Memory.wf]

/-- A write keeps the canonical form. -/
theorem Memory.write_wf {m : Memory} (i : Nat) (v : Byte) (h : Memory.wf m = true) :
    Memory.wf (Memory.write m i v) = true := by
  induction m with
  | nil => simp [Memory.write, Memory.wf]
  | cons c m ih =>
    obtain ⟨a, u⟩ := c
    obtain ⟨hall, hwf⟩ := Memory.wf_cons.1 h
    unfold Memory.write
    split
    · rename_i hlt
      exact Memory.wf_cons.2 ⟨fun c hc => (List.mem_cons.1 hc).elim (fun e => e ▸ hlt) (fun hc => hlt.trans (hall c hc)), h⟩
    · split
      · rename_i heq
        exact Memory.wf_cons.2 ⟨fun c hc => heq ▸ hall c hc, hwf⟩
      · refine Memory.wf_cons.2 ⟨fun c hc => ?_, ih hwf⟩
        rcases Memory.mem_write hc with hc | rfl
        · exact hall c hc
        · show a < i
          omega

theorem Memory.writeFrom_wf (vs : List Byte) {m : Memory} (i : Nat) (h : Memory.wf m = true) :
    Memory.wf (Memory.writeFrom m i vs) = true := by
  induction vs generalizing m i with
  | nil => exact h
  | cons v vs ih => exact ih (i + 1) (Memory.write_wf i v h)

theorem Memory.mem_writeFrom {vs : List Byte} {m : Memory} {i : Nat} {c : Host.Cell}
    (h : c ∈ Memory.writeFrom m i vs) : c ∈ m ∨ (i ≤ c.1 ∧ c.1 < i + vs.length) := by
  induction vs generalizing m i with
  | nil => exact .inl h
  | cons v vs ih =>
    rcases ih h with h | ⟨h1, h2⟩
    · rcases Memory.mem_write h with h | rfl
      · exact .inl h
      · exact .inr ⟨Nat.le_refl i, by simp⟩
    · exact .inr ⟨by omega, by simp only [List.length_cons]; omega⟩

/-- The plaintext space after reset is in canonical form. -/
theorem reset_pt_wf : Memory.wf State.reset.block.pt = true := rfl

/-- A byte below or above the written ones reads as before. -/
theorem Memory.read_writeFrom_outside (vs : List Byte) (m : Memory) {i j : Nat} (h : j < i ∨ i + vs.length ≤ j) :
    Memory.read (Memory.writeFrom m i vs) j = Memory.read m j := by
  induction vs generalizing m i with
  | nil => rfl
  | cons v vs ih =>
    simp only [List.length_cons] at h
    rw [Memory.writeFrom, ih _ (by omega), Memory.read_write_other _ _ (by omega)]

/-- The written bytes read back. -/
theorem Memory.read_writeFrom_inside (vs : List Byte) (m : Memory) (i : Nat) {k : Nat} (h : k < vs.length) :
    Memory.read (Memory.writeFrom m i vs) (i + k) = vs[k]? := by
  induction vs generalizing m i k with
  | nil => simp at h
  | cons v vs ih =>
    cases k with
    | zero =>
      rw [Memory.writeFrom, Memory.read_writeFrom_outside _ _ (by omega)]
      simp [Memory.read_write_same]
    | succ k =>
      have hk : k < vs.length := by simpa using h
      have := ih (Memory.write m i v) (i + 1) hk
      rw [Memory.writeFrom, List.getElem?_cons_succ, ← this]
      congr 1
      omega

end Sys2Proof.Machine
end

