-- ==== Sys2Proof/Laws/Ops.lean ====
section
/-! SUPPORT. What each shared operation can do, said once. -/

namespace Sys2Proof.Machine

section

variable {α β : Type}

@[simp] theorem andThen_next (a : α) (k : α → Answer β) : andThen (.next a) k = k a := rfl
@[simp] theorem andThen_fault (f : Fault) (k : α → Answer β) : andThen (.fault f) k = .fault f := rfl
@[simp] theorem andThen_refused (r : Refusal) (k : α → Answer β) : andThen (.refused r) k = .refused r := rfl

theorem andThen_eq_next {o : Answer α} {k : α → Answer β} {b : β} :
    andThen o k = .next b ↔ ∃ a, o = .next a ∧ k a = .next b := by
  cases o <;> simp

theorem andThen_eq_fault {o : Answer α} {k : α → Answer β} {f : Fault} :
    andThen o k = .fault f ↔ o = .fault f ∨ ∃ a, o = .next a ∧ k a = .fault f := by
  cases o <;> simp

theorem andThen_eq_refused {o : Answer α} {k : α → Answer β} {r : Refusal} :
    andThen o k = .refused r ↔ o = .refused r ∨ ∃ a, o = .next a ∧ k a = .refused r := by
  cases o <;> simp

@[simp] theorem need_some (v : α) (reg : DataReg) (k : α → Answer β) : need (some v) reg k = k v := rfl
@[simp] theorem need_none (reg : DataReg) (k : α → Answer β) :
    need (none : Option α) reg k = .refused (.unwrittenRegister reg) := rfl

theorem need_eq_next {o : Option α} {reg : DataReg} {k : α → Answer β} {b : β} :
    need o reg k = .next b ↔ ∃ v, o = some v ∧ k v = .next b := by
  cases o <;> simp

theorem need_eq_fault {o : Option α} {reg : DataReg} {k : α → Answer β} {f : Fault} :
    need o reg k = .fault f ↔ ∃ v, o = some v ∧ k v = .fault f := by
  cases o <;> simp

theorem need_eq_refused {o : Option α} {reg : DataReg} {k : α → Answer β} {r : Refusal} :
    need o reg k = .refused r ↔ (o = none ∧ r = .unwrittenRegister reg) ∨ ∃ v, o = some v ∧ k v = .refused r := by
  cases o <;> simp [eq_comm]

end

/-- The operand of a well-formed command is used as it stands. -/
theorem withOperand_of_lt {β : Type} {w v : Nat} (h : v < 2 ^ w) (k : BitVec w → Answer β) :
    withOperand w v k = k (BitVec.ofNat w v) := by
  simp [withOperand, operandValue, h]

/-- An operand that no word spells is refused. -/
theorem withOperand_of_ge {β : Type} {w v : Nat} (h : 2 ^ w ≤ v) (k : BitVec w → Answer β) :
    withOperand w v k = .refused .operandOutOfRange := by
  simp [withOperand, operandValue, Nat.not_lt.2 h]

/-- A meaning keeps the width and answers what its block's meaning answers. -/
theorem State.onBlock_eq_next {s s' : State} {f : Block s.width.bits → Answer (Block s.width.bits)} :
    s.onBlock f = .next s' ↔ ∃ b, f s.block = .next b ∧ s' = { width := s.width, block := b } := by
  rw [State.onBlock, andThen_eq_next]
  simp [eq_comm]

@[simp] theorem State.onBlock_mk (W : Width) (b : Block W.bits) (f : Block W.bits → Answer (Block W.bits)) :
    State.onBlock ⟨W, b⟩ f = andThen (f b) fun b' => .next ⟨W, b'⟩ := rfl

/-- A store inside `0 .. L` completes and changes `PT` alone; a store above `L` faults. -/
theorem storePt_cases {w : Nat} (i : Nat) (v : Byte) (b : Block w) :
    (i ≤ b.len ∧ storePt i v b = .next (b.setPt (Memory.write b.pt i v))) ∨
      (b.len < i ∧ storePt i v b = .fault (.noSuchAddress i)) := by
  by_cases h : i ≤ b.len
  · exact .inl ⟨h, by simp [storePt, h]⟩
  · exact .inr ⟨by omega, by simp [storePt, h]⟩

/-- Stores that stay inside `0 .. L` complete and change `PT` alone. -/
theorem storePtFrom_inside {w : Nat} (vs : List Byte) (b : Block w) (i : Nat) (h : i + vs.length ≤ b.len + 1) :
    storePtFrom i vs b = .next (b.setPt (Memory.writeFrom b.pt i vs)) := by
  induction vs generalizing b i with
  | nil => rfl
  | cons v vs ih =>
    simp only [List.length_cons] at h
    have hi : i ≤ b.len := by omega
    have hrest := ih (b.setPt (Memory.write b.pt i v)) (i + 1) (by simp; omega)
    simp only [storePtFrom, storePt, hi, if_true, andThen_next, hrest]
    rfl

end Sys2Proof.Machine
end

