-- ==== Sys2Proof/Laws/Decrypt.lean ====
section
/-! SUPPORT. The shape of an attempt, and the meanings of the commands as equations on a block. -/

namespace Sys2Proof.Machine

section

variable {w : Nat}

@[simp] theorem lfsrRun_zero (r t : BitVec w) : lfsrRun r t 0 = (r, []) := rfl

theorem lfsrRun_succ (r t : BitVec w) (n : Nat) :
    lfsrRun r t (n + 1) =
      ((lfsrStep (lfsrRun r t n).1 t).1, (lfsrRun r t n).2 ++ [(lfsrStep (lfsrRun r t n).1 t).2]) := rfl

theorem lfsrRun_length (r t : BitVec w) (n : Nat) : (lfsrRun r t n).2.length = n := by
  induction n with
  | zero => rfl
  | succ n ih => simp [lfsrRun_succ, ih]

@[simp] theorem scan_nil (t r : BitVec w) : scan t [] r = ([], true, r) := rfl

/-- A byte that passes the filter lets the loop go on from the carried register. -/
theorem scan_cons_of_acceptable (t : BitVec w) (c : Byte) (cs : List Byte) (r : BitVec w)
    (h : acceptable (recoverByte r t c).2 = true) :
    scan t (c :: cs) r =
      ((recoverByte r t c).2 :: (scan t cs (recoverByte r t c).1).1, (scan t cs (recoverByte r t c).1).2.1,
        (scan t cs (recoverByte r t c).1).2.2) := by
  simp [scan, h]

/-- A byte that fails the filter ends the loop, and is kept. -/
theorem scan_cons_of_rejected (t : BitVec w) (c : Byte) (cs : List Byte) (r : BitVec w)
    (h : acceptable (recoverByte r t c).2 = false) :
    scan t (c :: cs) r = ([(recoverByte r t c).2], false, (recoverByte r t c).1) := by
  simp [scan, h]

@[simp] theorem scanFull_nil (t r : BitVec w) : scanFull t [] r = ([], r) := rfl

theorem scanFull_cons (t : BitVec w) (c : Byte) (cs : List Byte) (r : BitVec w) :
    scanFull t (c :: cs) r =
      ((recoverByte r t c).2 :: (scanFull t cs (recoverByte r t c).1).1, (scanFull t cs (recoverByte r t c).1).2) := rfl

/-- The register after a byte is the register after 8 steps. -/
theorem recoverByte_register (r t : BitVec w) (c : Byte) : (recoverByte r t c).1 = (lfsrRun r t 8).1 := rfl

/-- The byte loop computes at most as many bytes as the ciphertext has. -/
theorem scan_length_le (t : BitVec w) (cs : List Byte) (r : BitVec w) : (scan t cs r).1.length ≤ cs.length := by
  induction cs generalizing r with
  | nil => simp [scan]
  | cons c cs ih =>
    unfold scan
    dsimp only
    split
    · simpa using ih _
    · simp

/-- The buffer of an attempt has `L + 1` bytes. -/
theorem decrypt_pt_length (ct : List Byte) (iv t : BitVec w) : (decrypt ct iv t).pt.length = ct.length + 1 := by
  have := scan_length_le t ct iv
  simp only [decrypt, List.length_append, List.length_replicate, List.length_cons, List.length_nil]
  omega

/-- An attempt computes at most `L` bytes. -/
theorem decrypt_idx_le (ct : List Byte) (iv t : BitVec w) : (decrypt ct iv t).idx ≤ ct.length :=
  scan_length_le t ct iv

end

end Sys2Proof.Machine
end

