-- ==== Sys2Proof/Machine/Observe.lean ====
section
/-! DEFINITION. The observation interface: what the host may read between two commands (spec/10_state.md R13, R27, R28;
spec/93_implementation_defined.md U3). Observing changes no state: these are functions of the state, not steps of it. -/

namespace Sys2Proof.Machine

/-- What the host can read (R27, D12). `R` is not among them (R16). -/
inductive HostLoc where
  | taps
  | init
  | ks
  | acc
  | valid
  | idx
  | pt (i : Nat)
  deriving DecidableEq, Repr

/-- What a host read gives, by the kind of location. -/
inductive HostValue (w : Nat) where
  | word (v : BitVec w)
  | bit (f : Bool)
  | count (n : Nat)
  | byte (v : Byte)
  deriving DecidableEq, Repr

/-- One host read. Reading an unwritten location gives a free value, another one for every `draw` (R13, U3, log 7);
`PT` has no byte above index `L` (R32, log 6). -/
def hostRead {w : Nat} (draw : Nat) (loc : HostLoc) (b : Block w) : Answer (HostValue w) :=
  match loc with
  | .taps => .next (.word (b.taps.getD (Config.freeTaps w draw)))
  | .init => .next (.word (b.init.getD (Config.freeInit w draw)))
  | .ks => .next (.bit (b.ks.getD (Config.freeKs draw)))
  | .acc => .next (.bit b.acc)
  | .valid => .next (.bit b.valid)
  | .idx => .next (.count b.idx)
  | .pt i =>
    if i ≤ b.len then .next (.byte ((Memory.read b.pt i).getD (Config.freePt i draw)))
    else .fault (.noSuchAddress i)

/-- The bytes `PT[0 .. L-1]` that hold a value, in index order (R28). -/
def ptBytes {w : Nat} (b : Block w) : List Byte := (List.range b.len).filterMap (Memory.read b.pt)

/-- What the host reports for an accepted candidate: the tap value and the plaintext (R28). -/
structure Report where
  taps : Nat
  bytes : List Byte
  deriving DecidableEq, Repr

/-- The pair (`TAPS`, `PT[0 .. L-1]`) (R28); there is none while `TAPS` is unwritten. -/
def report {w : Nat} (b : Block w) : Option Report := b.taps.map fun t => ⟨t.toNat, ptBytes b⟩

/-- How many LFSR steps the last `DECRYPT` took: the block's one measure of work (R65, R98). -/
def decryptSteps {w : Nat} (b : Block w) : Nat := 8 * b.idx

end Sys2Proof.Machine
end

