-- ==== Sys2Proof/Machine/Run.lean ====
section
/-! DEFINITION. Commands one after another, and the pseudo-commands (spec/20_memory.md R38; spec/30_encoding.md R48;
spec/70_reset_and_hazards.md R90). -/

namespace Sys2Proof.Machine

/-- Perform commands in the order the host issues them, up to the first that is refused (R38, R90). -/
def execAll : List Instr → State → Answer State
  | [], s => .next s
  | i :: is, s => andThen (exec i s) (execAll is)

/-- `TRY v` expands to `WRTAPS v ; DECRYPT` (R48). -/
def tryCommands (v : Nat) : List Instr := [.wrtaps v, .decrypt]

/-- `SEED v` expands to `WRINIT v ; LOAD` (R48). -/
def seedCommands (v : Nat) : List Instr := [.wrinit v, .load]

/-- The host issues words after those that wait (R38, log 3). -/
def State.issueLast (s : State) (xs : List (CmdWord s.width.bits)) : State :=
  { width := s.width, block := s.block.setInput (s.block.input ++ xs) }

end Sys2Proof.Machine
end

