-- ==== Sys2Proof/Machine/Asm.lean ====
section
/-! DEFINITION. The assembler syntax, one command per line (spec/30_encoding.md R47, R48; log 10). -/

namespace Sys2Proof.Machine

/-- Why a line is no command (R47). -/
inductive AsmError where
  /-- The first word is no mnemonic in capitals. -/
  | unknownMnemonic
  /-- The command takes an operand and the line gives none, or the other way round. -/
  | wrongOperandCount
  /-- The operand is no unsigned integer literal. -/
  | badLiteral
  /-- The literal is `2^W` or more: an assembly error, not a truncated value (R47). -/
  | literalOutOfRange
  deriving DecidableEq, Repr

/-- The value of one digit in a base of at most 16. -/
def digitValue (base : Nat) (c : Char) : Option Nat :=
  let n := c.toNat
  let d :=
    if 48 ≤ n ∧ n ≤ 57 then n - 48
    else if 65 ≤ n ∧ n ≤ 70 then n - 55
    else if 97 ≤ n ∧ n ≤ 102 then n - 87
    else 16
  if d < base then some d else none

/-- The value of a row of digits after those already read. -/
def digitsValue (base : Nat) : Nat → List Char → Option Nat
  | soFar, [] => some soFar
  | soFar, c :: cs =>
    match digitValue base c with
    | some d => digitsValue base (base * soFar + d) cs
    | none => none

/-- An unsigned literal: hexadecimal `0x…`, binary `0b…` or decimal (R47). -/
def literalValue : List Char → Option Nat
  | [] => none
  | '0' :: 'x' :: c :: cs => digitsValue 16 0 (c :: cs)
  | '0' :: 'b' :: c :: cs => digitsValue 2 0 (c :: cs)
  | c :: cs => digitsValue 10 0 (c :: cs)

/-- The operand of a command, in the range `0 .. 2^W - 1` (R47). -/
def asmOperand (w : Nat) (cs : List Char) : Except AsmError Nat :=
  match literalValue cs with
  | none => .error .badLiteral
  | some v => if v < 2 ^ w then .ok v else .error .literalOutOfRange

/-- Close the token read so far, if there is one. -/
def closeToken (cur : List Char) : List (List Char) := if cur.isEmpty then [] else [cur]

/-- Cut a line at spaces and tabs (log 10). -/
def tokensFrom (cur : List Char) : List Char → List (List Char)
  | [] => closeToken cur
  | c :: cs =>
    if c = ' ' ∨ c = '\t' then closeToken cur ++ tokensFrom [] cs else tokensFrom (cur ++ [c]) cs

/-- The tokens of a line up to its comment, which `#` starts (R47). -/
def lineTokens (line : List Char) : List (List Char) := tokensFrom [] (line.takeWhile (· != '#'))

/-- The commands without an operand. -/
def asmBare (m : List Char) : Except AsmError (List Instr) :=
  if m = ['L', 'O', 'A', 'D'] then .ok [.load]
  else if m = ['S', 'T', 'E', 'P'] then .ok [.step]
  else if m = ['D', 'E', 'C', 'R', 'Y', 'P', 'T'] then .ok [.decrypt]
  else if m = ['W', 'R', 'T', 'A', 'P', 'S'] ∨ m = ['W', 'R', 'I', 'N', 'I', 'T'] ∨ m = ['T', 'R', 'Y'] ∨
      m = ['S', 'E', 'E', 'D'] then .error .wrongOperandCount
  else .error .unknownMnemonic

/-- The commands and pseudo-commands with an operand (R47, R48). -/
def asmWithOperand (w : Nat) (m a : List Char) : Except AsmError (List Instr) :=
  if m = ['W', 'R', 'T', 'A', 'P', 'S'] then (asmOperand w a).map fun v => [.wrtaps v]
  else if m = ['W', 'R', 'I', 'N', 'I', 'T'] then (asmOperand w a).map fun v => [.wrinit v]
  else if m = ['T', 'R', 'Y'] then (asmOperand w a).map tryCommands
  else if m = ['S', 'E', 'E', 'D'] then (asmOperand w a).map seedCommands
  else if m = ['L', 'O', 'A', 'D'] ∨ m = ['S', 'T', 'E', 'P'] ∨ m = ['D', 'E', 'C', 'R', 'Y', 'P', 'T'] then
    .error .wrongOperandCount
  else .error .unknownMnemonic

/-- The commands of one line; a line with nothing before its comment has none (R47, log 10). -/
def assembleLine (w : Nat) (line : List Char) : Except AsmError (List Instr) :=
  match lineTokens line with
  | [] => .ok []
  | [m] => asmBare m
  | [m, a] => asmWithOperand w m a
  | _ :: _ :: _ :: _ => .error .wrongOperandCount

end Sys2Proof.Machine
end

