-- ==== Sys2Proof/Machine/Instances.lean ====
section
/-! DEFINITION. Several instances side by side: each has its own state and its own run, a command reaches one of them
(spec/10_state.md R29, R30; spec/60_exceptions.md R75, R82; spec/70_reset_and_hazards.md R88, R90). -/

namespace Sys2Proof.Machine

/-- Whether the run of one instance is well formed, or which stop ended it (R75, R90). -/
inductive RunMark where
  /-- No command of the run was refused (R90). -/
  | wellFormed
  /-- A command of the run was refused; the mark is never cleared (R75). -/
  | refused (reason : Refusal)
  /-- A command of the run ended in a fault; no command does (R72). -/
  | faulted (reason : Fault)
  deriving DecidableEq, Repr

/-- One instance with the mark of its run. The state of a marked run is the one before the command that was stopped
(R75: no state changes). -/
structure InstanceRun where
  state : State
  mark : RunMark
  deriving DecidableEq, Repr

/-- The instances, numbered from 0 by their place; an instance has no identifier register (R82). -/
abbrev Instances := List InstanceRun

/-- An instance after it has answered (R75, R90). -/
def InstanceRun.afterAnswer (x : InstanceRun) : Answer State → InstanceRun
  | .next s => { state := s, mark := .wellFormed }
  | .fault f => { state := x.state, mark := .faulted f }
  | .refused r => { state := x.state, mark := .refused r }

/-- Let an instance act: a well-formed run goes on from its state, a marked run stays as it is (R75, R90). -/
def InstanceRun.perform (act : State → Answer State) (x : InstanceRun) : InstanceRun :=
  match x.mark with
  | .wellFormed => x.afterAnswer (act x.state)
  | .refused _ => x
  | .faulted _ => x

/-- Change instance `n` alone; `none` when there is no such instance (R29, R30). -/
def changeAt (n : Nat) (f : InstanceRun → InstanceRun) (sys : Instances) : Option Instances :=
  (sys[n]?).map fun x => sys.set n (f x)

/-- Perform a command on instance `n`. A refusal marks the run of this instance alone; the others go on (R30, R75, R90). -/
def execAt (n : Nat) (i : Instr) (sys : Instances) : Option Instances := changeAt n (InstanceRun.perform (exec i)) sys

/-- One step of instance `n`: the next command word issued to it is decoded and performed (R30, R38). -/
def stepAt (n : Nat) (sys : Instances) : Option Instances := changeAt n (InstanceRun.perform step) sys

/-- Perform commands on the instances they name, in the order of the list: one interleaving (R30). -/
def execInterleaved : List (Nat × Instr) → Instances → Option Instances
  | [], sys => some sys
  | (n, i) :: cmds, sys => (execAt n i sys).bind (execInterleaved cmds)

/-- The commands of an interleaving that reach instance `k`, in order (R30). -/
def commandsOf (k : Nat) (cmds : List (Nat × Instr)) : List Instr :=
  cmds.filterMap fun c => if c.1 = k then some c.2 else none

/-- Reset instance `n`; the others stay as they are (R88). The mark of a refused run stays, since R75 never clears it
(log 11). -/
def resetAt (n : Nat) (sys : Instances) : Option Instances :=
  changeAt n (fun x => { state := x.state.applyReset, mark := x.mark }) sys

end Sys2Proof.Machine
end

