-- ==== Sys2Proof/Machine/HostSide.lean ====
section
/-! DEFINITION. The host around the block: partition of the tap space, the worker's sweep, the monitor's poll
(spec/60_exceptions.md R81 to R86; 00_scope.md R5 keeps them out of the block). Nothing here is a part of the machine:
these are functions over its commands and its host-readable state (log 9). -/

namespace Sys2Proof.Machine

/-- `chunk_size = ceil(2^W / N)` (R83). -/
def chunkSize (w n : Nat) : Nat := (2 ^ w + n - 1) / n

/-- The first tap value of chunk `i`, clamped to `2^W` (R83). -/
def chunkStart (w n i : Nat) : Nat := min (i * chunkSize w n) (2 ^ w)

/-- The end of chunk `i`, exclusive, clamped to `2^W` (R83). -/
def chunkEnd (w n i : Nat) : Nat := min ((i + 1) * chunkSize w n) (2 ^ w)

/-- The tap values of chunk `i` in ascending order (R81, R83). -/
def chunkTaps (w n i : Nat) : List Nat := List.range' (chunkStart w n i) (chunkEnd w n i - chunkStart w n i)

/-- A worker with the instance it owns: what it has emitted, its checked-counter, its completion flag (R81, R84). -/
structure Worker where
  inst : State
  emitted : List Report
  checked : Nat
  done : Bool
  deriving DecidableEq, Repr

/-- A worker before its first attempt. The counter starts at 0 and the completion flag at false: the model's choice,
since R84 states neither start value (log 12). -/
def Worker.start (s : State) : Worker := { inst := s, emitted := [], checked := 0, done := false }

/-- One attempt: `TRY t`, emit when accepted, count (R81). -/
def workerAttempt (t : Nat) (k : Worker) : Answer Worker :=
  andThen (execAll (tryCommands t) k.inst) fun s =>
    .next
      { inst := s
        emitted := if s.block.acc then k.emitted ++ (report s.block).toList else k.emitted
        checked := k.checked + 1
        done := k.done }

/-- The sweep over the tap values of a chunk; the completion flag is set once they are exhausted (R81, R84). -/
def workerRun : List Nat → Worker → Answer Worker
  | [], k => .next { k with done := true }
  | t :: ts, k => andThen (workerAttempt t k) (workerRun ts)

/-- What a worker emits over the given tap values, started on the given instance; nothing when a command is refused, which is the
model's choice (log 11). -/
def emittedBy (s : State) (ts : List Nat) : List Report :=
  match workerRun ts (Worker.start s) with
  | .next k => k.emitted
  | .fault _ => []
  | .refused _ => []

/-- `poll()`: the sum of the workers' counters and the AND of their completion flags (R85). -/
def poll (ks : List Worker) : Nat × Bool := ((ks.map Worker.checked).sum, ks.all Worker.done)

/-- `100 * total_checked / 2^W`, as an exact fraction (R85). -/
def percentComplete (w totalChecked : Nat) : Rat := 100 * (totalChecked : Rat) / 2 ^ w

end Sys2Proof.Machine
end

