-- ==== Sys2Proof/Safety.lean ====
section
/-! DEFINITION. What counts as a safe run and a sound state, in the terms the statements use
(spec/10_state.md R20, R21, R32; spec/70_reset_and_hazards.md R90). -/

namespace Sys2Proof.Machine

/-- The state of a next outcome, if it is one. -/
def nextOf {α : Type} : Answer α → Option α
  | .next a => some a
  | .fault _ => none
  | .refused _ => none

/-- The reason of a refusal, if the outcome is one. -/
def refusalOf {α : Type} : Answer α → Option Refusal
  | .next _ => none
  | .fault _ => none
  | .refused r => some r

/-- So many steps of the machine, up to the first that stops (R38, R90). -/
def runSteps : Nat → State → Answer State
  | 0, s => .next s
  | k + 1, s => andThen (step s) (runSteps k)

/-- A run of one instance: the words applied in order from the reset state (R90). -/
def runFromReset (width : Width) (ct : List Byte) (xs : List (CmdWord width.bits)) : Answer State :=
  runSteps xs.length ((State.resetOf width ct).issueLast xs)

/-- A run is well formed when no command in it is refused (R90). -/
def runIsWellFormed (width : Width) (ct : List Byte) (xs : List (CmdWord width.bits)) : Bool :=
  (nextOf (runFromReset width ct xs)).isSome

/-- `PT` is in canonical form, which is the model's choice (log 6), and lists no address above `L` (R32). -/
def Block.ptInSpace {w : Nat} (b : Block w) : Prop :=
  Memory.wf b.pt = true ∧ ∀ c ∈ b.pt, c.1 ≤ b.len

/-- `IDX` lies in `0 .. L` (R21). -/
def Block.idxInRange {w : Nat} (b : Block w) : Prop := b.idx ≤ b.len

/-- Whenever `VALID` is 1, `TAPS` and `INIT` are written and `PT[0 .. L]`, `ACC`, `IDX` are the result of `decrypt` for
their current values (R20). -/
def Block.resultIsCurrent {w : Nat} (b : Block w) : Prop :=
  b.valid = true →
    ∃ t iv, b.taps = some t ∧ b.init = some iv ∧
      (∀ i, i ≤ b.len → Memory.read b.pt i = (decrypt b.ct iv t).pt[i]?) ∧
      b.acc = (decrypt b.ct iv t).acc ∧ b.idx = (decrypt b.ct iv t).idx

/-- The invariant of the machine: the plaintext space is sound (its canonical form is the model's, log 6), `IDX` is in range, and a valid result belongs to the
current tap mask and initial value. -/
def State.Inv (s : State) : Prop :=
  s.block.ptInSpace ∧ s.block.idxInRange ∧ s.block.resultIsCurrent

/-- The registers `reg` names hold a value (R13). -/
def Block.isWritten {w : Nat} (b : Block w) : DataReg → Bool
  | .taps => b.taps.isSome
  | .init => b.init.isSome
  | .r => b.r.isSome

/-- The register for whose sake a command is refused: the first unwritten one in the order of its pseudocode (R75,
R76). -/
def firstMissing {w : Nat} (b : Block w) : Instr → Option DataReg
  | .wrtaps _ => none
  | .wrinit _ => none
  | .load => if b.isWritten .init then none else some .init
  | .step => if b.isWritten .r then (if b.isWritten .taps then none else some .taps) else some .r
  | .decrypt => if b.isWritten .init then (if b.isWritten .taps then none else some .taps) else some .init

end Sys2Proof.Machine
end

