-- ==== Sys2Proof/Laws/Run.lean ====
section
/-! SUPPORT. Runs: one step at a time, and the same as the host's run of the machine. -/

namespace Sys2Proof.Machine

@[simp] theorem execAll_nil (s : State) : execAll [] s = .next s := rfl

@[simp] theorem execAll_cons (i : Instr) (cmds : List Instr) (s : State) :
    execAll (i :: cmds) s = andThen (exec i s) (execAll cmds) := rfl

@[simp] theorem runSteps_zero (s : State) : runSteps 0 s = .next s := rfl

theorem runSteps_succ (k : Nat) (s : State) : runSteps (k + 1) s = andThen (step s) (runSteps k) := rfl

/-- One step of the host's run, for any machine. -/
theorem host_run_succ (M : Host.Core) (k : Nat) (s : M.State) :
    M.run (k + 1) s = match M.step s with
      | .next t => M.run k t
      | .fault f => .fault f
      | .refused r => .refused r := rfl

/-- The model's run is the host's run of the same machine. -/
theorem core_run_eq_runSteps (k : Nat) (s : State) : core.run k s = runSteps k s := by
  induction k generalizing s with
  | zero => rfl
  | succ k ih =>
    refine (host_run_succ core k s).trans ?_
    have hstep : core.step s = step s := rfl
    rw [runSteps_succ]
    cases hs : core.step s with
    | next t =>
      rw [hstep] at hs
      rw [hs]
      exact ih t
    | fault f =>
      rw [hstep] at hs
      rw [hs]
      rfl
    | refused r =>
      rw [hstep] at hs
      rw [hs]
      rfl

/-- With no word issued a step changes nothing. -/
theorem step_of_no_word {s : State} (h : s.block.input = []) : step s = .next s := by
  rw [step, h]
  rfl

/-- With a word issued a step takes it and performs it. -/
theorem step_of_word {s : State} {x : CmdWord s.width.bits} {rest : List (CmdWord s.width.bits)}
    (h : s.block.input = x :: rest) : step s = performWord x (s.afterTaking rest) := by
  rw [step, h]
  rfl

/-- A word of the length of the instance's words becomes the next command. -/
theorem issueTableWord_of_length {s : State} {nbits : Nat} (h : widthOfBits nbits = some s.width) (x : Nat) :
    issueTableWord s nbits x = s.issueFirst (BitVec.ofNat (s.width.bits + 8) x) := by
  simp [issueTableWord, h]

/-- A word of any other length is not issued. -/
theorem issueTableWord_of_other_length {s : State} {nbits : Nat} (h : widthOfBits nbits ≠ some s.width) (x : Nat) :
    issueTableWord s nbits x = s := by
  simp [issueTableWord, h]

theorem performWord_of_ok {w : Nat} {x : CmdWord w} {i : Instr} (h : decode w x = .ok i) (s : State) :
    performWord x s = exec i s := by
  simp [performWord, h]

theorem performWord_of_error {w : Nat} {x : CmdWord w} {e : DecodeError} (h : decode w x = .error e) (s : State) :
    performWord x s = .refused .reservedEncoding := by
  cases e
  simp [performWord, h]

end Sys2Proof.Machine
end

