-- ==== Sys2Proof/Laws/Instances.lean ====
section
/-! SUPPORT. What a change of one instance can do, and what an instance can answer. -/

namespace Sys2Proof.Machine

/-- A change of one instance answers exactly when the instance exists, and puts the changed instance in its place. -/
theorem changeAt_eq_some {n : Nat} {f : InstanceRun → InstanceRun} {sys sys' : Instances} :
    changeAt n f sys = some sys' ↔ ∃ x, sys[n]? = some x ∧ sys' = sys.set n (f x) := by
  simp [changeAt, eq_comm]

theorem changeAt_length {n : Nat} {f : InstanceRun → InstanceRun} {sys sys' : Instances}
    (h : changeAt n f sys = some sys') : sys'.length = sys.length := by
  obtain ⟨x, -, rfl⟩ := changeAt_eq_some.1 h
  simp

/-- Every other instance stays as it is. -/
theorem changeAt_other {n k : Nat} {f : InstanceRun → InstanceRun} {sys sys' : Instances}
    (h : changeAt n f sys = some sys') (hk : k ≠ n) : sys'[k]? = sys[k]? := by
  obtain ⟨x, -, rfl⟩ := changeAt_eq_some.1 h
  exact List.getElem?_set_ne hk.symm

@[simp] theorem InstanceRun.perform_wellFormed (act : State → Answer State) (s : State) :
    InstanceRun.perform act ⟨s, .wellFormed⟩ = InstanceRun.afterAnswer ⟨s, .wellFormed⟩ (act s) := rfl

/-- A marked run stays as it is. -/
theorem InstanceRun.perform_marked {x : InstanceRun} (act : State → Answer State) (h : x.mark ≠ .wellFormed) :
    x.perform act = x := by
  obtain ⟨s, m⟩ := x
  cases m <;> first | rfl | exact absurd rfl h

@[simp] theorem InstanceRun.afterAnswer_next (x : InstanceRun) (s : State) :
    x.afterAnswer (.next s) = ⟨s, .wellFormed⟩ := rfl

@[simp] theorem InstanceRun.afterAnswer_fault (x : InstanceRun) (f : Fault) :
    x.afterAnswer (.fault f) = ⟨x.state, .faulted f⟩ := rfl

@[simp] theorem InstanceRun.afterAnswer_refused (x : InstanceRun) (r : Refusal) :
    x.afterAnswer (.refused r) = ⟨x.state, .refused r⟩ := rfl

@[simp] theorem execInterleaved_nil (sys : Instances) : execInterleaved [] sys = some sys := rfl

@[simp] theorem execInterleaved_cons (n : Nat) (i : Instr) (cmds : List (Nat × Instr)) (sys : Instances) :
    execInterleaved ((n, i) :: cmds) sys = (execAt n i sys).bind (execInterleaved cmds) := rfl

end Sys2Proof.Machine
end

