-- ==== Sys2Proof/Laws/PerInstr.lean ====
section
/-! SUPPORT. Statements made per command, one lemma for each constructor. -/

namespace Sys2Proof

theorem commandWord_getLsbD {w : Nat} (op : BitVec 8) (v : BitVec w) (i : Nat) :
    (commandWord op v).getLsbD i = if i < w then v.getLsbD i else op.getLsbD (i - w) := by
  unfold commandWord
  by_cases h : i < w
  · simp [BitVec.getLsbD_setWidth, h]; omega
  · have hv : v.getLsbD i = false := BitVec.getLsbD_of_ge _ _ (by omega)
    simp only [BitVec.getLsbD_or, BitVec.getLsbD_shiftLeft, BitVec.getLsbD_setWidth, h, hv]
    by_cases h8 : i < w + 8
    · have : i - w < w + 8 := by omega
      simp [h8, this]
    · have : op.getLsbD (i - w) = false := BitVec.getLsbD_of_ge _ _ (by omega)
      simp [h8, this]

/-- The opcode field of a command word is its opcode. -/
@[simp] theorem opcodeField_commandWord {w : Nat} (op : BitVec 8) (v : BitVec w) :
    opcodeField (commandWord op v) = op := by
  apply BitVec.eq_of_getLsbD_eq
  intro i hi
  rw [opcodeField, BitVec.getLsbD_extractLsb', commandWord_getLsbD]
  simp [hi]

/-- The operand field of a command word is its operand. -/
@[simp] theorem operandField_commandWord {w : Nat} (op : BitVec 8) (v : BitVec w) :
    operandField (commandWord op v) = v := by
  apply BitVec.eq_of_getLsbD_eq
  intro i hi
  rw [operandField, BitVec.getLsbD_extractLsb', commandWord_getLsbD]
  simp [hi]

/-- The fields of an encoded command are its opcode and its operand (R41, R42, R43). -/
def Laws.EncodedFields.Statement (i : Instr) : Prop :=
  ∀ w, i.wellFormed w = true →
    opcodeField (encode w i) = i.opcode ∧ (operandField (encode w i)).toNat = i.operand

theorem Laws.EncodedFields.wrtaps (v : Nat) : Laws.EncodedFields.Statement (.wrtaps v) := by
  intro w h
  have hv : v < 2 ^ w := by simpa [Instr.wellFormed] using h
  simp [encode, Instr.operand, Nat.mod_eq_of_lt hv]

theorem Laws.EncodedFields.wrinit (v : Nat) : Laws.EncodedFields.Statement (.wrinit v) := by
  intro w h
  have hv : v < 2 ^ w := by simpa [Instr.wellFormed] using h
  simp [encode, Instr.operand, Nat.mod_eq_of_lt hv]

theorem Laws.EncodedFields.load : Laws.EncodedFields.Statement .load := by
  intro w _
  simp [encode, Instr.operand]

theorem Laws.EncodedFields.step : Laws.EncodedFields.Statement .step := by
  intro w _
  simp [encode, Instr.operand]

theorem Laws.EncodedFields.decrypt : Laws.EncodedFields.Statement .decrypt := by
  intro w _
  simp [encode, Instr.operand]

end Sys2Proof
end

