-- ==== Sys2Proof/Certificates/Slice0/Obligations.lean ====
section
/-! DEFINITION. The statements for the provers: what the block's commands do and leave alone, its encodings, its
refusals, its invariants and its reset, each from the rules of spec/ its docstring names. -/

open Sys2Proof Sys2Proof.Machine

-- ---------------------------------------------------------------------------------------------------------------
-- Command words
-- ---------------------------------------------------------------------------------------------------------------

/-- A few words of both widths decode to the commands they spell, and a few spell none (95 V35, V36). -/
def Obligations.SpelledWordsDecode : Prop :=
  decode 8 0x011D = .ok (.wrtaps 0x1D) ∧ decode 8 0x0242 = .ok (.wrinit 0x42) ∧
  decode 8 0x0300 = .ok .load ∧ decode 8 0x0400 = .ok .step ∧ decode 8 0x0500 = .ok .decrypt ∧
  decode 8 0x0000 = .error .reservedEncoding ∧ decode 8 0x0301 = .error .reservedEncoding ∧
  decode 8 0xFFFF = .error .reservedEncoding ∧
  decode 64 0x01000000000000001B = .ok (.wrtaps 0x1B) ∧
  decode 64 0x020123456789ABCDEF = .ok (.wrinit 0x0123456789ABCDEF) ∧
  decode 64 0x030000000000000000 = .ok .load ∧ decode 64 0x040000000000000000 = .ok .step ∧
  decode 64 0x050000000000000000 = .ok .decrypt ∧
  decode 64 0x058000000000000000 = .error .reservedEncoding

/-- R42: a word spells a command exactly when `word & mask == match` for the match and mask of the table, at every
width, and an opcode of 0x00 or of 0x06 to 0xFF is reserved. -/
def Obligations.MatchAndMaskSelectTheCommand : Prop :=
  ∀ (w : Nat) (x : CmdWord w),
    (x &&& BitVec.ofNat (w + 8) (0xFF <<< w) = BitVec.ofNat (w + 8) (0x01 <<< w) ↔
      decode w x = .ok (.wrtaps (x.toNat % 2 ^ w))) ∧
    (x &&& BitVec.ofNat (w + 8) (0xFF <<< w) = BitVec.ofNat (w + 8) (0x02 <<< w) ↔
      decode w x = .ok (.wrinit (x.toNat % 2 ^ w))) ∧
    (x &&& BitVec.ofNat (w + 8) (2 ^ (w + 8) - 1) = BitVec.ofNat (w + 8) (0x03 <<< w) ↔ decode w x = .ok .load) ∧
    (x &&& BitVec.ofNat (w + 8) (2 ^ (w + 8) - 1) = BitVec.ofNat (w + 8) (0x04 <<< w) ↔ decode w x = .ok .step) ∧
    (x &&& BitVec.ofNat (w + 8) (2 ^ (w + 8) - 1) = BitVec.ofNat (w + 8) (0x05 <<< w) ↔
      decode w x = .ok .decrypt) ∧
    (x.toNat / 2 ^ w = 0x00 ∨ 0x06 ≤ x.toNat / 2 ^ w → decode w x = .error .reservedEncoding)

/-- R43: the operand is the word's low `W` bits as they stand, bit for bit, at the register it is written to, whatever
the field holds. -/
def Obligations.OperandFieldIsTakenAsItStands : Prop :=
  ∀ (W : Width) (b : Block W.bits) (x : CmdWord W.bits) (rest : List (CmdWord W.bits)), b.input = x :: rest →
    (x.toNat / 2 ^ W.bits = 0x01 →
      ∃ v b', decode W.bits x = .ok (.wrtaps v) ∧ v = x.toNat % 2 ^ W.bits ∧ step ⟨W, b⟩ = .next ⟨W, b'⟩ ∧
        ∃ t, b'.taps = some t ∧ ∀ i, i < W.bits → t.getLsbD i = x.getLsbD i) ∧
    (x.toNat / 2 ^ W.bits = 0x02 →
      ∃ v b', decode W.bits x = .ok (.wrinit v) ∧ v = x.toNat % 2 ^ W.bits ∧ step ⟨W, b⟩ = .next ⟨W, b'⟩ ∧
        ∃ t, b'.init = some t ∧ ∀ i, i < W.bits → t.getLsbD i = x.getLsbD i)

/-- R44: exactly the words with opcode 0x00 or 0x06 to 0xFF, and those with opcode 0x03, 0x04 or 0x05 and a non-zero
operand field, are refused with `ReservedEncoding`. -/
def Obligations.ReservedWordsAreRefused : Prop :=
  ∀ (W : Width) (b : Block W.bits) (x : CmdWord W.bits) (rest : List (CmdWord W.bits)), b.input = x :: rest →
    (step ⟨W, b⟩ = .refused .reservedEncoding ↔
      x.toNat / 2 ^ W.bits = 0x00 ∨ 0x06 ≤ x.toNat / 2 ^ W.bits ∨
        (0x03 ≤ x.toNat / 2 ^ W.bits ∧ x.toNat / 2 ^ W.bits ≤ 0x05 ∧ x.toNat % 2 ^ W.bits ≠ 0))

/-- Encoding then decoding a command returns the command, for every command, operand and width: the spec's inference
in 30_encoding.md section 3, marked derived there. -/
def Obligations.DecodeAfterEncode : Prop :=
  ∀ (w : Nat) (i : Instr), i.wellFormed w = true → decode w (encode w i) = .ok i

/-- Decoding then encoding a word that is not invalid returns the word, and the command is well formed: the spec's
inference in 30_encoding.md section 3, marked derived there. -/
def Obligations.EncodeAfterDecode : Prop :=
  ∀ (w : Nat) (x : CmdWord w) (i : Instr), decode w x = .ok i → i.wellFormed w = true ∧ encode w i = x

/-- No word spells two commands: the five match and mask pairs select disjoint sets of words, and an encoded command
matches the pair of its own row: the spec's inference in 30_encoding.md section 3, marked derived there. -/
def Obligations.NoWordSpellsTwoCommands : Prop :=
  opcodeRows.Pairwise (fun row row' => ∀ w (x : CmdWord w), ¬(rowMatches w row x = true ∧ rowMatches w row' x = true)) ∧
  ∀ (w : Nat) (i : Instr), i.row ∈ opcodeRows ∧ rowMatches w i.row (encode w i) = true

/-- A step performs the command the host's next word spells, on the state in which that word has been taken; with no word
issued it changes nothing (the input list and the idle step are the model's own, log 3). -/
def Obligations.StepRunsTheDecodedCommand : Prop :=
  (∀ (W : Width) (b : Block W.bits) (x : CmdWord W.bits) (rest : List (CmdWord W.bits)) (i : Instr),
    b.input = x :: rest → decode W.bits x = .ok i → step ⟨W, b⟩ = exec i ⟨W, { b with input := rest }⟩) ∧
  ∀ (W : Width) (b : Block W.bits), b.input = [] → step ⟨W, b⟩ = .next ⟨W, b⟩

/-- Taking the host's words one step at a time performs the commands they spell in the order issued, up to the first
that is refused (R38 and R90 in prose; the input list is the model's own, log 3). -/
def Obligations.WordsArePerformedInIssueOrder : Prop :=
  ∀ (W : Width) (b : Block W.bits) (cmds : List Instr) (rest : List (CmdWord W.bits)),
    (∀ i ∈ cmds, i.wellFormed W.bits = true) → b.input = cmds.map (encode W.bits) ++ rest →
      runSteps cmds.length ⟨W, b⟩ = execAll cmds ⟨W, { b with input := rest }⟩

-- ---------------------------------------------------------------------------------------------------------------
-- The commands
-- ---------------------------------------------------------------------------------------------------------------

/-- R49: `WRTAPS v` is the word with opcode 0x01 and operand `v`; in every state and for every `v` it writes `TAPS`,
clears `VALID` and leaves all else. -/
def Obligations.WrtapsWritesTaps : Prop :=
  ∀ (W : Width) (v : Nat), v < 2 ^ W.bits →
    encode W.bits (.wrtaps v) = BitVec.ofNat (W.bits + 8) (0x01 * 2 ^ W.bits + v) ∧
    ∀ b : Block W.bits,
      exec (.wrtaps v) ⟨W, b⟩ = .next ⟨W, { b with taps := some (BitVec.ofNat W.bits v), valid := false }⟩

/-- R50: `WRINIT v` is the word with opcode 0x02 and operand `v`; in every state and for every `v` it writes `INIT`,
clears `VALID` and leaves all else. -/
def Obligations.WrinitWritesInit : Prop :=
  ∀ (W : Width) (v : Nat), v < 2 ^ W.bits →
    encode W.bits (.wrinit v) = BitVec.ofNat (W.bits + 8) (0x02 * 2 ^ W.bits + v) ∧
    ∀ b : Block W.bits,
      exec (.wrinit v) ⟨W, b⟩ = .next ⟨W, { b with init := some (BitVec.ofNat W.bits v), valid := false }⟩

/-- R57: `LOAD` is the word with opcode 0x03 and operand 0; it is refused when `INIT` is unwritten, and otherwise
copies `INIT` to `R` and leaves all else. -/
def Obligations.LoadReinitialisesTheRegister : Prop :=
  ∀ W : Width, encode W.bits .load = BitVec.ofNat (W.bits + 8) (0x03 * 2 ^ W.bits) ∧
    ∀ b : Block W.bits,
      (b.init = none → exec .load ⟨W, b⟩ = .refused (.unwrittenRegister .init)) ∧
      ∀ v, b.init = some v → exec .load ⟨W, b⟩ = .next ⟨W, { b with r := some v }⟩

/-- R58: `STEP` is the word with opcode 0x04 and operand 0; it is refused when `R`, then when `TAPS`, is unwritten; for
every other pair it writes the shifted register with the feedback bit in bit `W-1`, and `KS`, and leaves all else. The
corner cases of the rule follow. -/
def Obligations.StepAdvancesTheGenerator : Prop :=
  (∀ W : Width, encode W.bits .step = BitVec.ofNat (W.bits + 8) (0x04 * 2 ^ W.bits) ∧
    ∀ b : Block W.bits,
      (b.r = none → exec .step ⟨W, b⟩ = .refused (.unwrittenRegister .r)) ∧
      (b.r ≠ none → b.taps = none → exec .step ⟨W, b⟩ = .refused (.unwrittenRegister .taps)) ∧
      ∀ r t, b.r = some r → b.taps = some t →
        exec .step ⟨W, b⟩ = .next ⟨W, { b with
          r := some ((r >>> 1) ||| ((BitVec.ofBool (parity (r &&& t))).setWidth W.bits <<< (W.bits - 1)))
          ks := some (parity (r &&& t)) }⟩) ∧
  (∀ (W : Width) (t : BitVec W.bits), lfsrStep 0 t = (0, false)) ∧
  (∀ (W : Width) (r : BitVec W.bits), lfsrStep r 0 = (r >>> 1, false)) ∧
  (∀ (W : Width) (r : BitVec W.bits), (lfsrStep r (BitVec.allOnes W.bits)).2 = parity r) ∧
  ∀ W : Width, lfsrStep (BitVec.allOnes W.bits) (BitVec.allOnes W.bits) =
    (BitVec.ofNat W.bits (2 ^ (W.bits - 1) - 1), false)

/-- R64: `DECRYPT` is the word with opcode 0x05 and operand 0; it is refused when `INIT`, then when `TAPS`, is unwritten;
otherwise it writes all of `PT[0 .. L]`, `R`, `ACC`, `IDX` from the attempt and sets `VALID`, whatever stood in them. -/
def Obligations.DecryptWritesTheAttempt : Prop :=
  ∀ W : Width, encode W.bits .decrypt = BitVec.ofNat (W.bits + 8) (0x05 * 2 ^ W.bits) ∧
    ∀ b : Block W.bits,
      (b.init = none → exec .decrypt ⟨W, b⟩ = .refused (.unwrittenRegister .init)) ∧
      (b.init ≠ none → b.taps = none → exec .decrypt ⟨W, b⟩ = .refused (.unwrittenRegister .taps)) ∧
      ∀ iv t, b.init = some iv → b.taps = some t →
        ∃ m : Memory,
          exec .decrypt ⟨W, b⟩ = .next ⟨W, { b with
            pt := m
            r := some (decrypt b.ct iv t).rEnd
            acc := (decrypt b.ct iv t).acc
            idx := (decrypt b.ct iv t).idx
            valid := true }⟩ ∧
          (∀ i, i ≤ b.len → ∃ p, (decrypt b.ct iv t).pt[i]? = some p ∧ Memory.read m i = some p) ∧
          ∀ i, b.len < i → Memory.read m i = Memory.read b.pt i

/-- What the commands that store nothing leave alone: `WRTAPS` all but `TAPS` and `VALID`, `WRINIT` all but `INIT` and
`VALID`, `LOAD` all but `R`, `STEP` all but `R` and `KS`; every byte of `PT` reads as before. -/
def Obligations.FrameOfCommandsThatStoreNothing : Prop :=
  ∀ (W : Width) (b : Block W.bits) (s' : State),
    (∀ v, exec (.wrtaps v) ⟨W, b⟩ = .next s' → ∃ b' : Block W.bits, s' = ⟨W, b'⟩ ∧ b'.ct = b.ct ∧ b'.init = b.init ∧
      b'.r = b.r ∧ b'.ks = b.ks ∧ b'.acc = b.acc ∧ b'.idx = b.idx ∧ b'.input = b.input ∧
      ∀ a, Memory.read b'.pt a = Memory.read b.pt a) ∧
    (∀ v, exec (.wrinit v) ⟨W, b⟩ = .next s' → ∃ b' : Block W.bits, s' = ⟨W, b'⟩ ∧ b'.ct = b.ct ∧ b'.taps = b.taps ∧
      b'.r = b.r ∧ b'.ks = b.ks ∧ b'.acc = b.acc ∧ b'.idx = b.idx ∧ b'.input = b.input ∧
      ∀ a, Memory.read b'.pt a = Memory.read b.pt a) ∧
    (exec .load ⟨W, b⟩ = .next s' → ∃ b' : Block W.bits, s' = ⟨W, b'⟩ ∧ b'.ct = b.ct ∧ b'.taps = b.taps ∧
      b'.init = b.init ∧ b'.ks = b.ks ∧ b'.acc = b.acc ∧ b'.valid = b.valid ∧ b'.idx = b.idx ∧ b'.input = b.input ∧
      ∀ a, Memory.read b'.pt a = Memory.read b.pt a) ∧
    (exec .step ⟨W, b⟩ = .next s' → ∃ b' : Block W.bits, s' = ⟨W, b'⟩ ∧ b'.ct = b.ct ∧ b'.taps = b.taps ∧
      b'.init = b.init ∧ b'.acc = b.acc ∧ b'.valid = b.valid ∧ b'.idx = b.idx ∧ b'.input = b.input ∧
      ∀ a, Memory.read b'.pt a = Memory.read b.pt a)

/-- What `DECRYPT` leaves alone: `TAPS`, `INIT`, `KS`, the ciphertext and every byte outside `PT[0 .. L]`, which are the
bytes it stores. -/
def Obligations.FrameOfDecrypt : Prop :=
  ∀ (W : Width) (b : Block W.bits) (s' : State), exec .decrypt ⟨W, b⟩ = .next s' →
    ∃ b' : Block W.bits, s' = ⟨W, b'⟩ ∧ b'.ct = b.ct ∧ b'.taps = b.taps ∧ b'.init = b.init ∧ b'.ks = b.ks ∧
      b'.input = b.input ∧ ∀ a, b.len < a → Memory.read b'.pt a = Memory.read b.pt a

/-- The "written by" column of the table in 10_state.md section 1: a command that changes a piece of state is one the
table names for it. -/
def Obligations.OnlyTheNamedCommandsWrite : Prop :=
  ∀ (i : Instr) (W : Width) (b b' : Block W.bits), exec i ⟨W, b⟩ = .next ⟨W, b'⟩ →
    (b'.taps ≠ b.taps → ∃ v, i = .wrtaps v) ∧
    (b'.init ≠ b.init → ∃ v, i = .wrinit v) ∧
    (b'.r ≠ b.r → i = .load ∨ i = .step ∨ i = .decrypt) ∧
    (b'.ks ≠ b.ks → i = .step) ∧
    (b'.acc ≠ b.acc → i = .decrypt) ∧
    (b'.valid ≠ b.valid → (∃ v, i = .wrtaps v) ∨ (∃ v, i = .wrinit v) ∨ i = .decrypt) ∧
    (b'.idx ≠ b.idx → i = .decrypt) ∧
    ((∃ a, Memory.read b'.pt a ≠ Memory.read b.pt a) → i = .decrypt) ∧
    b'.ct = b.ct ∧ b'.input = b.input

/-- The "read by" column of the table in 10_state.md section 1: nothing in the block reads `KS`, `ACC`, `VALID`, `IDX` or
`PT`. From two states that agree on the ciphertext, `TAPS`, `INIT` and `R` a command is refused for the same reason in
both or completes in both; every piece it writes then comes out equal, and every piece it does not write stays as it was
in each. -/
def Obligations.NothingReadsTheResults : Prop :=
  ∀ (i : Instr) (W : Width) (b c : Block W.bits),
    c.ct = b.ct → c.taps = b.taps → c.init = b.init → c.r = b.r →
      (∀ b', exec i ⟨W, b⟩ = .next ⟨W, b'⟩ → ∃ c', exec i ⟨W, c⟩ = .next ⟨W, c'⟩ ∧
        c'.taps = b'.taps ∧ c'.init = b'.init ∧ c'.r = b'.r ∧
        (b'.ct = b.ct ∧ c'.ct = c.ct ∧ b'.input = b.input ∧ c'.input = c.input) ∧
        (if i = .step then c'.ks = b'.ks else b'.ks = b.ks ∧ c'.ks = c.ks) ∧
        (if i = .load ∨ i = .step then b'.valid = b.valid ∧ c'.valid = c.valid else c'.valid = b'.valid) ∧
        (if i = .decrypt then
          c'.acc = b'.acc ∧ c'.idx = b'.idx ∧
          (∀ a, a ≤ b.len → Memory.read c'.pt a = Memory.read b'.pt a) ∧
          (∀ a, b.len < a → Memory.read b'.pt a = Memory.read b.pt a ∧ Memory.read c'.pt a = Memory.read c.pt a)
        else
          (b'.acc = b.acc ∧ c'.acc = c.acc) ∧ (b'.idx = b.idx ∧ c'.idx = c.idx) ∧
          ∀ a, Memory.read b'.pt a = Memory.read b.pt a ∧ Memory.read c'.pt a = Memory.read c.pt a)) ∧
      ∀ reason, exec i ⟨W, b⟩ = .refused reason → exec i ⟨W, c⟩ = .refused reason

-- ---------------------------------------------------------------------------------------------------------------
-- The registers and flags
-- ---------------------------------------------------------------------------------------------------------------

/-- R14: every value of `TAPS` is legal and reads back exactly as last written; `STEP` and `DECRYPT` use it; bit `i` set means
register bit `i` takes part in the feedback; every other command leaves it; it is unwritten after reset. -/
def Obligations.TapsHoldsWhatWasLastWritten : Prop :=
  (∀ (W : Width) (b : Block W.bits) (v : Nat), v < 2 ^ W.bits →
    ∃ b', exec (.wrtaps v) ⟨W, b⟩ = .next ⟨W, b'⟩ ∧
      (∀ draw, hostRead draw .taps b' = .next (.word (BitVec.ofNat W.bits v))) ∧
      (∀ r, b.r = some r → ∃ c, exec .step ⟨W, b'⟩ = .next ⟨W, c⟩ ∧
        c.r = some (lfsrStep r (BitVec.ofNat W.bits v)).1) ∧
      ∀ iv, b.init = some iv → ∃ c, exec .decrypt ⟨W, b'⟩ = .next ⟨W, c⟩ ∧
        c.r = some (decrypt b.ct iv (BitVec.ofNat W.bits v)).rEnd) ∧
  (∀ (i : Instr) (W : Width) (b b' : Block W.bits), (∀ v, i ≠ .wrtaps v) → exec i ⟨W, b⟩ = .next ⟨W, b'⟩ →
    b'.taps = b.taps) ∧
  (∀ (W : Width) (r t : BitVec W.bits) (i : Nat), i < W.bits → t.getLsbD i = false →
    feedback r (t ||| BitVec.ofNat W.bits (2 ^ i)) = (feedback r t ^^ r.getLsbD i)) ∧
  ∀ s : State, s.applyReset.block.taps = none

/-- R15: every value of `INIT` is legal and reads back exactly as last written, as often as the host rewrites it; every
other command leaves it; it is unwritten after reset; `LOAD` and `DECRYPT` use the value it holds when they are issued. -/
def Obligations.InitHoldsWhatWasLastWritten : Prop :=
  (∀ (W : Width) (b : Block W.bits) (v : Nat), v < 2 ^ W.bits →
    ∃ b', exec (.wrinit v) ⟨W, b⟩ = .next ⟨W, b'⟩ ∧
      (∀ draw, hostRead draw .init b' = .next (.word (BitVec.ofNat W.bits v))) ∧
      (∃ c, exec .load ⟨W, b'⟩ = .next ⟨W, c⟩ ∧ c.r = some (BitVec.ofNat W.bits v)) ∧
      ∀ t, b.taps = some t → ∃ c, exec .decrypt ⟨W, b'⟩ = .next ⟨W, c⟩ ∧
        c.r = some (decrypt b.ct (BitVec.ofNat W.bits v) t).rEnd) ∧
  (∀ (i : Instr) (W : Width) (b b' : Block W.bits), (∀ v, i ≠ .wrinit v) → exec i ⟨W, b⟩ = .next ⟨W, b'⟩ →
    b'.init = b.init) ∧
  ∀ s : State, s.applyReset.block.init = none

/-- R17: `STEP` writes to `KS` the bit that stands in bit `W-1` of `R` after the step, which the host can read; every other
command leaves `KS`; it is unwritten after reset; no command's effect on the other state depends on it. -/
def Obligations.KsIsTheKeystreamBitOfTheLastStep : Prop :=
  (∀ (W : Width) (b : Block W.bits) (r t : BitVec W.bits), b.r = some r → b.taps = some t →
    ∃ b' r', exec .step ⟨W, b⟩ = .next ⟨W, b'⟩ ∧ b'.r = some r' ∧ b'.ks = some (feedback r t) ∧
      b'.ks = some (r'.getLsbD (W.bits - 1)) ∧
      ∀ draw, hostRead draw .ks b' = .next (.bit (feedback r t))) ∧
  (∀ (i : Instr) (W : Width) (b b' : Block W.bits), i ≠ .step → exec i ⟨W, b⟩ = .next ⟨W, b'⟩ → b'.ks = b.ks) ∧
  (∀ s : State, s.applyReset.block.ks = none) ∧
  ∀ (i : Instr) (W : Width) (b b' : Block W.bits) (f : Option Bool), exec i ⟨W, b⟩ = .next ⟨W, b'⟩ →
    ∃ g, exec i ⟨W, { b with ks := f }⟩ = .next ⟨W, { b' with ks := g }⟩

/-- R19: `VALID` is set by every `DECRYPT` that is not refused, cleared by every `WRTAPS` and `WRINIT`, left by `LOAD` and
`STEP`, and 0 after reset. -/
def Obligations.ValidIsSetByDecryptAndClearedByWrites : Prop :=
  (∀ (W : Width) (b b' : Block W.bits), exec .decrypt ⟨W, b⟩ = .next ⟨W, b'⟩ → b'.valid = true) ∧
  (∀ (W : Width) (b b' : Block W.bits) (v : Nat), exec (.wrtaps v) ⟨W, b⟩ = .next ⟨W, b'⟩ → b'.valid = false) ∧
  (∀ (W : Width) (b b' : Block W.bits) (v : Nat), exec (.wrinit v) ⟨W, b⟩ = .next ⟨W, b'⟩ → b'.valid = false) ∧
  (∀ (W : Width) (b b' : Block W.bits), exec .load ⟨W, b⟩ = .next ⟨W, b'⟩ → b'.valid = b.valid) ∧
  (∀ (W : Width) (b b' : Block W.bits), exec .step ⟨W, b⟩ = .next ⟨W, b'⟩ → b'.valid = b.valid) ∧
  ∀ s : State, s.applyReset.block.valid = false

/-- After `DECRYPT`, `ACC` is 1 exactly when every byte of `PT[0 .. L-1]` is acceptable, and `IDX` is `L` when accepted and
`k + 1` when byte `k` is the first that fails (R18, R21). -/
def Obligations.AccAndIdxDescribeTheBuffer : Prop :=
  ∀ (W : Width) (b b' : Block W.bits), exec .decrypt ⟨W, b⟩ = .next ⟨W, b'⟩ →
    (b'.acc = true ↔ ∀ i, i < b.len → ∃ p, Memory.read b'.pt i = some p ∧ acceptable p = true) ∧
    (b'.acc = true → b'.idx = b.len) ∧
    ∀ k p, k < b.len → (∀ i q, i < k → Memory.read b'.pt i = some q → acceptable q = true) →
      Memory.read b'.pt k = some p → acceptable p = false → b'.acc = false ∧ b'.idx = k + 1

/-- A host read of a written location gives what it holds, whatever the draw; a read of `PT` above `L` faults (R27 and R32
in prose; the fault is the model's, log 6). -/
def Obligations.HostReadsWhatIsHeld : Prop :=
  ∀ (w draw : Nat) (b : Block w),
    (∀ v, b.taps = some v → hostRead draw .taps b = .next (.word v)) ∧
    (∀ v, b.init = some v → hostRead draw .init b = .next (.word v)) ∧
    (∀ f, b.ks = some f → hostRead draw .ks b = .next (.bit f)) ∧
    hostRead draw .acc b = .next (.bit b.acc) ∧
    hostRead draw .valid b = .next (.bit b.valid) ∧
    hostRead draw .idx b = .next (.count b.idx) ∧
    (∀ i p, i ≤ b.len → Memory.read b.pt i = some p → hostRead draw (.pt i) b = .next (.byte p)) ∧
    ∀ i, b.len < i → hostRead draw (.pt i) b = .fault (.noSuchAddress i)

/-- What the host reports after an accepted `DECRYPT` is the tap mask and all `L` plaintext bytes of the attempt: the spec's
inference in 10_state.md section 10, marked derived there. -/
def Obligations.ReportHoldsAllPlaintextBytes : Prop :=
  ∀ (W : Width) (b b' : Block W.bits) (iv t : BitVec W.bits), b.init = some iv → b.taps = some t →
    exec .decrypt ⟨W, b⟩ = .next ⟨W, b'⟩ →
      report b' = some ⟨t.toNat, (decrypt b.ct iv t).pt.take b.len⟩ ∧ (ptBytes b').length = b.len

-- ---------------------------------------------------------------------------------------------------------------
-- The generator
-- ---------------------------------------------------------------------------------------------------------------

/-- R52: `parity(v)` is the number of 1 bits modulo 2, equally the XOR of all bits; `feedback(r, t)` is the parity of
`r & t`. -/
def Obligations.ParityIsPopcountModTwo : Prop :=
  ∀ (w : Nat) (v r t : BitVec w),
    (parity v = true ↔ ((List.range w).countP (fun i => v.getLsbD i)) % 2 = 1) ∧
    parity v = (List.range w).foldl (fun p i => p ^^ v.getLsbD i) false ∧
    feedback r t = parity (r &&& t)

/-- `bit_fold` equals the parity for every value of every width, and `byte_fold` for every width that is a multiple of 8:
the spec's inference in 41_lfsr.md section 1, marked derived there. -/
def Obligations.BitAndByteFoldsAreParity : Prop :=
  (∀ (w : Nat) (x : BitVec w), bitFold x = parity x) ∧
  ∀ (n : Nat) (x : BitVec (8 * n)), byteFold x = parity x

/-- `word_fold` equals the parity for every value of every width that is a power of two: the spec's inference in
41_lfsr.md section 1, marked derived there. -/
def Obligations.WordFoldIsParity : Prop :=
  ∀ (k : Nat) (x : BitVec (2 ^ k)), wordFold k x = parity x

/-- R54: one step moves every bit one place toward bit 0, drops bit 0 and puts the feedback bit, computed before the shift,
into bit `W-1`; for `W = 1` the new register is the feedback bit. -/
def Obligations.OneStepShiftsAndFeedsTheTop : Prop :=
  (∀ (w : Nat) (r t : BitVec w), 0 < w →
    lfsrStep r t =
      ((r >>> 1) ||| ((BitVec.ofBool (parity (r &&& t))).setWidth w <<< (w - 1)), parity (r &&& t)) ∧
    (∀ i, i + 1 < w → (lfsrStep r t).1.getLsbD i = r.getLsbD (i + 1)) ∧
    (lfsrStep r t).1.getLsbD (w - 1) = parity (r &&& t)) ∧
  ∀ r t : BitVec 1, (lfsrStep r t).1 = BitVec.ofBool (lfsrStep r t).2

/-- The step in exact arithmetic: nothing overflows, the shift is logical, the feedback bit weighs `2^(W-1)`: the spec's
inference in 41_lfsr.md section 2, marked derived there. -/
def Obligations.OneStepInExactArithmetic : Prop :=
  ∀ (w : Nat) (r t : BitVec w), 0 < w →
    (lfsrStep r t).1.toNat = r.toNat / 2 + (if (lfsrStep r t).2 then 2 ^ (w - 1) else 0) ∧
    (r >>> 1).toNat ≤ 2 ^ (w - 1) - 1

/-- Degenerate inputs: the zero register is a fixed point; with no tap the register shifts out and the keystream is zero;
the step is injective when bit 0 taps and loses bit 0 when it does not: the spec's inference in 41_lfsr.md section 3,
marked derived there. -/
def Obligations.DegenerateInputsOfTheGenerator : Prop :=
  ∀ (w : Nat) (t : BitVec w), 0 < w →
    lfsrStep 0 t = (0, false) ∧
    (∀ (r : BitVec w) (n : Nat), lfsrRun r 0 n = (r >>> n, List.replicate n false)) ∧
    (∀ (r : BitVec w) (n : Nat), w ≤ n → (lfsrRun r 0 n).1 = 0) ∧
    (t.getLsbD 0 = true → ∀ r r' : BitVec w, (lfsrStep r t).1 = (lfsrStep r' t).1 → r = r') ∧
    (t.getLsbD 0 = false → ∀ r : BitVec w, lfsrStep (r ^^^ BitVec.ofNat w 1) t = lfsrStep r t)

/-- `n` `STEP` commands in a row compute `lfsr_run(R, TAPS, n)`, with `KS` holding the last bit: the spec's inference in
41_lfsr.md section 4, marked derived there. -/
def Obligations.StepCommandsRunTheGenerator : Prop :=
  ∀ (W : Width) (b : Block W.bits) (r t : BitVec W.bits) (n : Nat), b.r = some r → b.taps = some t →
    execAll (List.replicate n .step) ⟨W, b⟩ = .next ⟨W, { b with
      r := some (lfsrRun r t n).1
      ks := if n = 0 then b.ks else (lfsrRun r t n).2.getLast? }⟩

-- ---------------------------------------------------------------------------------------------------------------
-- The filter and the attempt
-- ---------------------------------------------------------------------------------------------------------------

/-- R61: the acceptable bytes are 0x20 to 0x7E, 0x0D, 0x0A and 0x00: 98 bytes; the other 158 are rejected. -/
def Obligations.AcceptableBytesAreThePrintableOnes : Prop :=
  (∀ b : Byte, acceptable b = true ↔
    (0x20 ≤ b.toNat ∧ b.toNat < 0x7F) ∨ b = 0x0D ∨ b = 0x0A ∨ b = 0x00) ∧
  ((List.range 256).countP (fun n => acceptable (BitVec.ofNat 8 n))) = 98 ∧
  ((List.range 256).countP (fun n => !acceptable (BitVec.ofNat 8 n))) = 158

/-- R62: `recover_byte` runs the generator 8 steps whatever the width and XORs the `j`-th keystream bit, which is bit `W-1` of the
register after that step, with bit `7-j` of the ciphertext byte into bit `7-j` of the output. -/
def Obligations.RecoverByteXorsEightKeystreamBits : Prop :=
  ∀ (w : Nat) (r t : BitVec w) (c : Byte), 0 < w →
    (recoverByte r t c).1 = (lfsrRun r t 8).1 ∧
    (∀ j, j < 8 → ∃ f, (lfsrRun r t 8).2[j]? = some f ∧
      f = (lfsrRun r t (j + 1)).1.getLsbD (w - 1) ∧
      (recoverByte r t c).2.getLsbD (7 - j) = (f ^^ c.getLsbD (7 - j)))

/-- R63: an attempt computes bytes from the reloaded register, carried across bytes, up to and with the first that fails
the filter; the tail is zero; the sentinel 0x00 stands at `L`; `acc`, `idx` and the last register are as the loop leaves
them. -/
def Obligations.AttemptStopsAtTheFirstRejectedByte : Prop :=
  ∀ (w : Nat) (ct : List Byte) (iv t : BitVec w),
    (decrypt ct iv t).pt.length = ct.length + 1 ∧
    (decrypt ct iv t).idx ≤ ct.length ∧
    (∀ i, i < (decrypt ct iv t).idx → ∃ c, ct[i]? = some c ∧
      (decrypt ct iv t).pt[i]? = some (recoverByte (lfsrRun iv t (8 * i)).1 t c).2) ∧
    (∀ i p, i + 1 < (decrypt ct iv t).idx → (decrypt ct iv t).pt[i]? = some p → acceptable p = true) ∧
    ((decrypt ct iv t).acc = true → (decrypt ct iv t).idx = ct.length ∧
      ∀ i p, i < ct.length → (decrypt ct iv t).pt[i]? = some p → acceptable p = true) ∧
    ((decrypt ct iv t).acc = false → 0 < (decrypt ct iv t).idx ∧
      ∃ p, (decrypt ct iv t).pt[(decrypt ct iv t).idx - 1]? = some p ∧ acceptable p = false) ∧
    (∀ i, (decrypt ct iv t).idx ≤ i → i < ct.length → (decrypt ct iv t).pt[i]? = some 0x00) ∧
    (decrypt ct iv t).pt[ct.length]? = some 0x00 ∧
    (decrypt ct iv t).rEnd = (lfsrRun iv t (8 * (decrypt ct iv t).idx)).1

/-- R34: bit `7-j` of plaintext byte `i` is bit `7-j` of ciphertext byte `i` XORed with keystream bit `8i + j`, in every byte
`DECRYPT` computes: most significant bit first on both sides. -/
def Obligations.BitsAreTakenMostSignificantFirst : Prop :=
  ∀ (W : Width) (b : Block W.bits) (iv t : BitVec W.bits), b.init = some iv → b.taps = some t →
    ∃ b', exec .decrypt ⟨W, b⟩ = .next ⟨W, b'⟩ ∧
      ∀ i j, i < b'.idx → j < 8 →
        ∃ c p f, b.ct[i]? = some c ∧ Memory.read b'.pt i = some p ∧
          (lfsrRun iv t (8 * b'.idx)).2[8 * i + j]? = some f ∧
          p.getLsbD (7 - j) = (f ^^ c.getLsbD (7 - j))

/-- After a `DECRYPT` the register stands exactly `8 * IDX` steps from `INIT`, and `STEP` commands that follow without a `LOAD`
continue the keystream from there: the early abort shows (the spec's inferences in 10_state.md section 9 and 42_decrypt.md
section 4, marked derived there). -/
def Obligations.GeneratorContinuesFromTheAbortPoint : Prop :=
  ∀ (W : Width) (b : Block W.bits) (iv t : BitVec W.bits) (n : Nat), b.init = some iv → b.taps = some t →
    ∃ b', execAll (.decrypt :: List.replicate n .step) ⟨W, b⟩ = .next ⟨W, b'⟩ ∧
      b'.idx = (decrypt b.ct iv t).idx ∧
      b'.r = some (lfsrRun iv t (8 * b'.idx + n)).1 ∧
      b'.ks = (if n = 0 then b.ks else (lfsrRun iv t (8 * b'.idx + n)).2.getLast?)

/-- The ciphertext bytes after the rejected one have no influence: two ciphertexts of one length that agree on the bytes
computed give the same attempt (the spec's inferences in 42_decrypt.md sections 4 and 8, marked derived there). -/
def Obligations.BytesAfterTheAbortAreNotRead : Prop :=
  ∀ (w : Nat) (ct ct' : List Byte) (iv t : BitVec w), ct'.length = ct.length →
    ct'.take (decrypt ct iv t).idx = ct.take (decrypt ct iv t).idx → decrypt ct' iv t = decrypt ct iv t

/-- The early abort never alters the bytes already computed, the rejected one among them, nor the outcome, compared with the
run to completion: the spec's inference in 42_decrypt.md section 4, marked derived there. -/
def Obligations.EarlyAbortKeepsThePrefix : Prop :=
  ∀ (w : Nat) (ct : List Byte) (iv t : BitVec w),
    (∀ i, i < (decrypt ct iv t).idx → (decrypt ct iv t).pt[i]? = (decryptFull ct iv t).pt[i]?) ∧
    (decrypt ct iv t).acc = (decryptFull ct iv t).acc ∧
    (decrypt ct iv t).pt[ct.length]? = (decryptFull ct iv t).pt[ct.length]? ∧
    (decryptFull ct iv t).idx = ct.length

/-- `recover_byte` XORs the ciphertext byte with the byte of its eight keystream bits, and the run to completion XORs byte `i` of
the ciphertext with the keystream byte `K_i`, which does not depend on the ciphertext: the spec's inferences in
42_decrypt.md sections 2 and 5, marked derived there. -/
def Obligations.FullRunXorsWithTheKeystream : Prop :=
  (∀ (w : Nat) (r t : BitVec w) (c : Byte), 0 < w → (recoverByte r t c).2 = c ^^^ byteOfBits (lfsrRun r t 8).2) ∧
  ∀ (w : Nat) (ct : List Byte) (iv t : BitVec w) (i : Nat) (c : Byte), 0 < w → ct[i]? = some c →
    (decryptFull ct iv t).pt[i]? = some (c ^^^ keystreamByte iv t i)

/-- Decryption undoes encryption with the same initial value and taps; an acceptable plaintext comes back accepted: the
spec's inference in 42_decrypt.md section 5, marked derived there. -/
def Obligations.DecryptionUndoesEncryption : Prop :=
  ∀ (w : Nat) (plain : List Byte) (iv t : BitVec w), 0 < w →
    (decryptFull (plain.mapIdx fun i p => p ^^^ keystreamByte iv t i) iv t).pt.take plain.length = plain ∧
    (plain.all acceptable = true →
      decrypt (plain.mapIdx fun i p => p ^^^ keystreamByte iv t i) iv t =
        { pt := plain ++ [0x00], acc := true, idx := plain.length, rEnd := (lfsrRun iv t (8 * plain.length)).1 })

/-- Corner cases of an attempt: the empty ciphertext; a rejection at the first byte; a plaintext byte 0x00 does not stop the
loop; with no taps or initial value 0 the plaintext is the ciphertext (cases (a), (b), (d), (f): the spec's inference in
42_decrypt.md section 7, marked derived there). -/
def Obligations.CornerCasesOfAnAttempt : Prop :=
  ∀ (w : Nat) (iv t : BitVec w), 0 < w →
    decrypt [] iv t = { pt := [0x00], acc := true, idx := 0, rEnd := iv } ∧
    (∀ c cs, acceptable (recoverByte iv t c).2 = false →
      decrypt (c :: cs) iv t =
        { pt := (recoverByte iv t c).2 :: List.replicate cs.length 0x00 ++ [0x00], acc := false, idx := 1,
          rEnd := (lfsrRun iv t 8).1 }) ∧
    (∀ c cs, (recoverByte iv t c).2 = 0x00 →
      (decrypt (c :: cs) iv t).idx = (decrypt cs (lfsrRun iv t 8).1 t).idx + 1 ∧
      (decrypt (c :: cs) iv t).acc = (decrypt cs (lfsrRun iv t 8).1 t).acc) ∧
    ∀ ct : List Byte, iv = 0 ∨ t = 0 →
      ((decrypt ct iv t).acc = true ↔ ct.all acceptable = true) ∧
      ∀ i, i < (decrypt ct iv t).idx → (decrypt ct iv t).pt[i]? = ct[i]?

/-- R73: when a plaintext byte fails the filter, `DECRYPT` ends with `ACC = 0` and `VALID = 1` and the block is ready: every
command completes next. -/
def Obligations.RejectionIsANormalResult : Prop :=
  ∀ (W : Width) (b : Block W.bits) (iv t : BitVec W.bits) (i : Nat) (p : Byte),
    b.init = some iv → b.taps = some t → i < b.len → (decryptFull b.ct iv t).pt[i]? = some p → acceptable p = false →
      ∃ b', exec .decrypt ⟨W, b⟩ = .next ⟨W, b'⟩ ∧ b'.acc = false ∧ b'.valid = true ∧
        ∀ cmd : Instr, cmd.wellFormed W.bits = true → ∃ s', exec cmd ⟨W, b'⟩ = .next s'

/-- One attempt `TRY v` depends on the ciphertext, `INIT` and `v` alone: nothing an earlier attempt left in `R`, `PT` or the
flags shows in its result (the spec's inference in 70_reset_and_hazards.md section 3, marked derived there). -/
def Obligations.AttemptForgetsEarlierAttempts : Prop :=
  ∀ (W : Width) (b c : Block W.bits) (iv : BitVec W.bits) (v : Nat),
    b.init = some iv → c.init = some iv → c.ct = b.ct → v < 2 ^ W.bits →
      ∃ b' c', execAll (tryCommands v) ⟨W, b⟩ = .next ⟨W, b'⟩ ∧ execAll (tryCommands v) ⟨W, c⟩ = .next ⟨W, c'⟩ ∧
        c'.taps = b'.taps ∧ c'.r = b'.r ∧ c'.acc = b'.acc ∧ c'.valid = b'.valid ∧ c'.idx = b'.idx ∧
        ∀ i, i ≤ b.len → Memory.read c'.pt i = Memory.read b'.pt i

-- ---------------------------------------------------------------------------------------------------------------
-- Exceptions, refusals, reset, invariants
-- ---------------------------------------------------------------------------------------------------------------

/-- No step raises an exception, and on written registers every command completes, for every value of `TAPS`, `INIT`, `R` and
every ciphertext (60_exceptions.md section 1; the state each command leaves is its own statement's). -/
def Obligations.NoStepRaisesAnException : Prop :=
  (∀ (s : State) (f : Fault), step s ≠ .fault f) ∧
  ∀ (W : Width) (b : Block W.bits) (i : Instr) (t iv r : BitVec W.bits), i.wellFormed W.bits = true →
    b.taps = some t → b.init = some iv → b.r = some r → ∃ s', exec i ⟨W, b⟩ = .next s'

/-- R75, R76: a word is refused for exactly the reasons of the closed list: first the decoder's, then the first register that
is unwritten in the order of the command's pseudocode; every other word completes; a refusal ends the run for good, with
no state after it. -/
def Obligations.RefusalsAreTheClosedList : Prop :=
  ∀ (W : Width) (b : Block W.bits) (x : CmdWord W.bits) (rest : List (CmdWord W.bits)), b.input = x :: rest →
    (∀ reason, step ⟨W, b⟩ = .refused reason ↔
      ((x.toNat / 2 ^ W.bits = 0x00 ∨ 0x06 ≤ x.toNat / 2 ^ W.bits ∨
        (0x03 ≤ x.toNat / 2 ^ W.bits ∧ x.toNat / 2 ^ W.bits ≤ 0x05 ∧ x.toNat % 2 ^ W.bits ≠ 0)) ∧
          reason = .reservedEncoding) ∨
      (decode W.bits x = .ok .load ∧ b.init = none ∧ reason = .unwrittenRegister .init) ∨
      (decode W.bits x = .ok .step ∧ b.r = none ∧ reason = .unwrittenRegister .r) ∨
      (decode W.bits x = .ok .step ∧ b.r ≠ none ∧ b.taps = none ∧ reason = .unwrittenRegister .taps) ∨
      (decode W.bits x = .ok .decrypt ∧ b.init = none ∧ reason = .unwrittenRegister .init) ∨
      (decode W.bits x = .ok .decrypt ∧ b.init ≠ none ∧ b.taps = none ∧ reason = .unwrittenRegister .taps)) ∧
    ((∃ s', step ⟨W, b⟩ = .next s') ↔ ∃ i, decode W.bits x = .ok i ∧ firstMissing b i = none) ∧
    ∀ (reason : Refusal) (n : Nat), step ⟨W, b⟩ = .refused reason → runSteps (n + 1) ⟨W, b⟩ = .refused reason

/-- R87: after reset `TAPS`, `INIT`, `R`, `KS` and every byte of `PT` are unwritten and `ACC`, `VALID`, `IDX` are 0, from any state
and in the states the model starts from; no command causes a reset. -/
def Obligations.ResetLeavesTheResetValues : Prop :=
  (∀ s : State, (∃ s₀ : State, s = s₀.applyReset) ∨ (∃ W ct, s = State.resetOf W ct) ∨ s = State.reset →
    s.block.taps = none ∧ s.block.init = none ∧ s.block.r = none ∧ s.block.ks = none ∧ s.block.acc = false ∧
    s.block.valid = false ∧ s.block.idx = 0 ∧ ∀ i, Memory.read s.block.pt i = none) ∧
  ∀ (i : Instr) (s s' s₀ : State), exec i s = .next s' → s' ≠ s₀.applyReset

/-- Reset touches neither the width nor the ciphertext of an instance, nor any other instance: the spec's inference in
70_reset_and_hazards.md section 1, marked derived there. That the mark of a refused run outlives the reset is the model's
reading (log 11). -/
def Obligations.ResetLeavesParametersAndOtherInstances : Prop :=
  ∀ (n : Nat) (sys sys' : Instances), resetAt n sys = some sys' →
    (∀ m, m ≠ n → sys'[m]? = sys[m]?) ∧
    ∃ (W : Width) (b b' : Block W.bits) (mark : RunMark),
      sys[n]? = some ⟨⟨W, b⟩, mark⟩ ∧ sys'[n]? = some ⟨⟨W, b'⟩, mark⟩ ∧ b'.ct = b.ct

/-- The plaintext space stays inside `0 .. L`, `IDX` stays in range, and a valid result stays that of the current `TAPS` and
`INIT`, over every step from every state that meets this (10_state.md sections 5 to 7; R20 is the spec's inference); and the
list that holds the plaintext space stays in canonical form, a clause that is the model's choice and no rule of the spec
(log 6). -/
def Obligations.EveryStepKeepsTheInvariant : Prop :=
  ∀ s s' : State, s.Inv → step s = .next s' → s'.Inv

/-- The invariant holds after reset, for every width and ciphertext and from every state; its clause that the list holding
the plaintext space is in canonical form is the model's choice and no rule of the spec (log 6). -/
def Obligations.ResetMeetsTheInvariant : Prop :=
  (∀ W ct, (State.resetOf W ct).Inv) ∧ State.reset.Inv ∧ ∀ s : State, s.applyReset.Inv

/-- In every run from reset, of any width, ciphertext and words: whenever `VALID` is 1, every byte of `PT[0 .. L]` is written and
`(PT, ACC, IDX)` is the attempt for the current `TAPS` and `INIT` (the spec's inference in 10_state.md section 5, marked
derived there). -/
def Obligations.ValidResultsBelongToTheCurrentTapsInEveryRun : Prop :=
  ∀ (W : Width) (ct : List Byte) (xs : List (CmdWord W.bits)) (s : State),
    runFromReset W ct xs = .next s → s.block.valid = true →
      ∃ t iv, s.block.taps = some t ∧ s.block.init = some iv ∧
        (∀ i, i ≤ s.block.len → ∃ p, (decrypt s.block.ct iv t).pt[i]? = some p ∧ Memory.read s.block.pt i = some p) ∧
        s.block.acc = (decrypt s.block.ct iv t).acc ∧ s.block.idx = (decrypt s.block.ct iv t).idx

/-- No step puts `unwritten` back: a register, `KS` or a byte of `PT` that holds a value holds one after (10_state.md
section 2). -/
def Obligations.WrittenStaysWritten : Prop :=
  ∀ (W : Width) (b b' : Block W.bits), step ⟨W, b⟩ = .next ⟨W, b'⟩ →
    (b.taps ≠ none → b'.taps ≠ none) ∧ (b.init ≠ none → b'.init ≠ none) ∧ (b.r ≠ none → b'.r ≠ none) ∧
    (b.ks ≠ none → b'.ks ≠ none) ∧ ∀ i, Memory.read b.pt i ≠ none → Memory.read b'.pt i ≠ none

/-- No step changes the width or the ciphertext (R6 and R8 in prose; that the model's state carries them is log 1), and none
touches a byte above `PT[L]`. -/
def Obligations.WidthAndCiphertextNeverChange : Prop :=
  ∀ s s' : State, step s = .next s' →
    s'.width = s.width ∧ s'.block.ct = s.block.ct ∧
    ∀ a, s.block.len < a → Memory.read s'.block.pt a = Memory.read s.block.pt a

/-- `WRINIT` and `WRTAPS` may come in either order, and after both neither `DECRYPT` nor `LOAD` followed by `STEP` is refused: the
spec's inference in 70_reset_and_hazards.md section 2, marked derived there. -/
def Obligations.StartUpInEitherOrder : Prop :=
  ∀ (W : Width) (b : Block W.bits) (u v : Nat), u < 2 ^ W.bits → v < 2 ^ W.bits →
    execAll [.wrinit u, .wrtaps v] ⟨W, b⟩ = execAll [.wrtaps v, .wrinit u] ⟨W, b⟩ ∧
    (∃ s', execAll [.wrinit u, .wrtaps v, .decrypt] ⟨W, b⟩ = .next s') ∧
    ∃ s', execAll [.wrinit u, .wrtaps v, .load, .step] ⟨W, b⟩ = .next s'

/-- R48: `TRY v` is `WRTAPS v ; DECRYPT`, one candidate attempt, and `SEED v` is `WRINIT v ; LOAD`, which puts `v` into `R`. -/
def Obligations.PseudoCommandsExpand : Prop :=
  (∀ (v : Nat) (s : State), execAll (tryCommands v) s = andThen (exec (.wrtaps v) s) (exec .decrypt)) ∧
  (∀ (v : Nat) (s : State), execAll (seedCommands v) s = andThen (exec (.wrinit v) s) (exec .load)) ∧
  (∀ (W : Width) (b : Block W.bits) (v : Nat), v < 2 ^ W.bits → b.init ≠ none →
    ∃ b', execAll (tryCommands v) ⟨W, b⟩ = .next ⟨W, b'⟩ ∧ b'.valid = true ∧ b'.taps = some (BitVec.ofNat W.bits v)) ∧
  ∀ (W : Width) (b : Block W.bits) (v : Nat), v < 2 ^ W.bits →
    ∃ b', execAll (seedCommands v) ⟨W, b⟩ = .next ⟨W, b'⟩ ∧ b'.r = some (BitVec.ofNat W.bits v)

/-- The assembler never yields a command that its width does not have, and it calls an operand of `2^W` or more an error
(30_encoding.md section 5; the cutting of a line into tokens is the model's, log 10). -/
def Obligations.AssemblerKeepsOperandsInRange : Prop :=
  (∀ (w : Nat) (line : List Char) (cmds : List Instr), assembleLine w line = .ok cmds →
    ∀ i ∈ cmds, i.wellFormed w = true) ∧
  ∀ (w : Nat) (m a : List Char) (v : Nat),
    m = ['W', 'R', 'T', 'A', 'P', 'S'] ∨ m = ['W', 'R', 'I', 'N', 'I', 'T'] ∨ m = ['T', 'R', 'Y'] ∨
      m = ['S', 'E', 'E', 'D'] →
    literalValue a = some v → 2 ^ w ≤ v → asmWithOperand w m a = .error .literalOutOfRange

-- ---------------------------------------------------------------------------------------------------------------
-- Several instances, and the host around them
-- ---------------------------------------------------------------------------------------------------------------

/-- The behaviour of a set of instances is the product of the behaviours of each. A command of one instance changes no other;
a refused one marks the run of its own instance, whose state stays; commands of two instances commute, refused or not; and
after any interleaving each instance is where its own commands alone lead it: the spec's inference in 10_state.md section
11, marked derived there. -/
def Obligations.InstancesAreIndependent : Prop :=
  (∀ (sys sys' : Instances) (n : Nat) (i : Instr), execAt n i sys = some sys' →
    sys'.length = sys.length ∧ (∀ k, k ≠ n → sys'[k]? = sys[k]?) ∧
    ∀ x, sys[n]? = some x → x.mark = .wellFormed →
      (∀ s, exec i x.state = .next s → sys'[n]? = some ⟨s, .wellFormed⟩) ∧
      ∀ r, exec i x.state = .refused r → sys'[n]? = some ⟨x.state, .refused r⟩) ∧
  (∀ (sys : Instances) (n m : Nat) (i j : Instr), m ≠ n →
    (execAt n i sys).bind (execAt m j) = (execAt m j sys).bind (execAt n i)) ∧
  ∀ (cmds : List (Nat × Instr)) (sys : Instances), (∀ c ∈ cmds, c.1 < sys.length) →
    ∃ sys', execInterleaved cmds sys = some sys' ∧ sys'.length = sys.length ∧
      ∀ k x, sys[k]? = some x → ∃ y, sys'[k]? = some y ∧
        (x.mark ≠ .wellFormed → y = x) ∧
        (x.mark = .wellFormed →
          (∀ s, execAll (commandsOf k cmds) x.state = .next s → y = ⟨s, .wellFormed⟩) ∧
          ∀ r, execAll (commandsOf k cmds) x.state = .refused r → y.mark = .refused r)

/-- R83: `chunk_size` is `ceil(2^W / N)`, a chunk runs between its two clamped bounds, and the `N` chunks cover the tap values
`0 .. 2^W - 1` exactly, each once, in rising order, the last ending at `2^W`. -/
def Obligations.ChunksPartitionTheTapSpace : Prop :=
  (∀ (w n : Nat), 1 ≤ n →
    2 ^ w ≤ n * chunkSize w n ∧ n * (chunkSize w n - 1) < 2 ^ w ∧
    (∀ i, chunkStart w n i = min (i * chunkSize w n) (2 ^ w) ∧
      chunkEnd w n i = min ((i + 1) * chunkSize w n) (2 ^ w) ∧
      (∀ t, t ∈ chunkTaps w n i ↔ chunkStart w n i ≤ t ∧ t < chunkEnd w n i) ∧
      chunkStart w n i ≤ chunkEnd w n i ∧ chunkEnd w n i = chunkStart w n (i + 1)) ∧
    chunkEnd w n (n - 1) = 2 ^ w ∧
    (List.range n).flatMap (chunkTaps w n) = List.range (2 ^ w)) ∧
  (List.range 4).map (fun i => (chunkStart 8 4 i, chunkEnd 8 4 i)) = [(0, 64), (64, 128), (128, 192), (192, 256)] ∧
  (List.range 3).map (fun i => (chunkStart 8 3 i, chunkEnd 8 3 i)) = [(0, 86), (86, 172), (172, 256)] ∧
  chunkSize 8 100 = 3 ∧ (chunkStart 8 100 85, chunkEnd 8 100 85) = (255, 256) ∧
  ∀ i, 86 ≤ i → chunkTaps 8 100 i = []

/-- A worker that sweeps tap values on an instance whose `INIT` is written emits exactly the accepted pairs, in order, counts
every attempt and sets its completion flag (60_exceptions.md section 5, host duties; log 9; that its counter starts at 0 and
its flag at false is the model's choice, log 12). -/
def Obligations.WorkerEmitsExactlyTheAcceptedCandidates : Prop :=
  ∀ (W : Width) (b : Block W.bits) (iv : BitVec W.bits) (taps : List Nat),
    b.init = some iv → (∀ t ∈ taps, t < 2 ^ W.bits) →
      ∃ k, workerRun taps (Worker.start ⟨W, b⟩) = .next k ∧ k.checked = taps.length ∧ k.done = true ∧
        k.emitted = taps.filterMap fun t =>
          if (decrypt b.ct iv (BitVec.ofNat W.bits t)).acc then
            some ⟨t, (decrypt b.ct iv (BitVec.ofNat W.bits t)).pt.take b.len⟩
          else none

/-- A search split over `N` instances finds what one instance finds: the sweeps of the chunks, each on an instance of its own
with the same ciphertext and initial value, together emit what one sweep of the whole space emits (60_exceptions.md
section 5, host duties; log 9). -/
def Obligations.SplitSearchFindsTheSameCandidates : Prop :=
  ∀ (W : Width) (ct : List Byte) (iv : BitVec W.bits) (n : Nat) (blocks : List (Block W.bits)) (b : Block W.bits),
    1 ≤ n → blocks.length = n → (∀ c ∈ blocks, c.ct = ct ∧ c.init = some iv) → b.ct = ct → b.init = some iv →
      (blocks.mapIdx fun i c => emittedBy ⟨W, c⟩ (chunkTaps W.bits n i)).flatten =
        emittedBy ⟨W, b⟩ (List.range (2 ^ W.bits))
end

