-- ==== Sys2Proof/Tests/Slice0.lean ====
section
/-! SUPPORT. The model's own tests, with expected values from spec/95_test_vectors.md, and a witness for the hypotheses of
each statement that has any. -/

open Sys2Proof Sys2Proof.Machine

namespace Sys2Proof.Tests

/-- A block of width 8 with the ciphertext of 95 V25 a, `TAPS`, `INIT` and `R` written, nothing else. -/
def demo : Block 8 :=
  { resetBlock 8 [0x2B, 0xFC, 0x8E] with taps := some 0x1D, init := some 0x42, r := some 0x42 }

/-- The same block just after reset. -/
def fresh : Block 8 := resetBlock 8 [0x2B, 0xFC, 0x8E]

/-- A block of width 64 with the inputs of 95 V11 and V27. -/
def demo64 : Block 64 :=
  { resetBlock 64 [0x96, 0x1E, 0x81] with
    taps := some 0x1B, init := some 0x0123456789ABCDEF, r := some 0x0123456789ABCDEF }

/-- The block of width 8 after a next outcome. -/
def after8 (o : Answer State) : Option (Block 8) :=
  match nextOf o with
  | some ⟨.w8, b⟩ => some b
  | some ⟨.w64, _⟩ => none
  | none => none

/-- The block of width 64 after a next outcome. -/
def after64 (o : Answer State) : Option (Block 64) :=
  match nextOf o with
  | some ⟨.w64, b⟩ => some b
  | some ⟨.w8, _⟩ => none
  | none => none

-- Well-formed commands: R43, R47 (the operand range), with an ill-formed term for each check.

theorem test_wellFormed_accepts_all_ones : (Instr.wrtaps 0xFF).wellFormed 8 = true := by decide
theorem test_wellFormed_refuses_wrtaps_beyond_width : (Instr.wrtaps 0x100).wellFormed 8 = false := by decide
theorem test_wellFormed_refuses_wrinit_beyond_width : (Instr.wrinit (2 ^ 64)).wellFormed 64 = false := by decide

-- Decoding: words of 95 V35 and V36, and bits written out from R41 and R42.

theorem test_decode_wrtaps : decode 8 0b0000000100011101 = .ok (.wrtaps 0x1D) := by rfl
theorem test_decode_wrinit : decode 8 0b0000001001000010 = .ok (.wrinit 0x42) := by rfl
theorem test_decode_load : decode 8 0b0000001100000000 = .ok .load := by rfl
theorem test_decode_step : decode 8 0b0000010000000000 = .ok .step := by rfl
theorem test_decode_decrypt : decode 8 0b0000010100000000 = .ok .decrypt := by rfl
theorem test_decode64_wrtaps : decode 64 0x01000000000000001B = .ok (.wrtaps 0x1B) := by rfl
theorem test_decode64_wrinit : decode 64 0x020123456789ABCDEF = .ok (.wrinit 0x0123456789ABCDEF) := by rfl
theorem test_decode64_decrypt : decode 64 0x050000000000000000 = .ok .decrypt := by rfl
theorem test_decode_refuses_zero_word : decode 8 0x0000 = .error .reservedEncoding := by rfl
theorem test_decode_refuses_load_with_operand : decode 8 0x0301 = .error .reservedEncoding := by rfl
theorem test_decode_refuses_opcode_six : decode 8 0x0600 = .error .reservedEncoding := by rfl
theorem test_decode_refuses_all_ones : decode 8 0xFFFF = .error .reservedEncoding := by rfl
theorem test_decode64_refuses_decrypt_with_operand : decode 64 0x058000000000000000 = .error .reservedEncoding := by rfl
theorem test_encode_wrtaps : encode 8 (.wrtaps 0x1D) = 0x011D := by decide
theorem test_encode64_wrinit : encode 64 (.wrinit 0x0123456789ABCDEF) = 0x020123456789ABCDEF := by decide
theorem test_table_word_of_width_8 : decodeTableWord 16 0x0500 = some .decrypt := by decide
theorem test_table_word_of_width_64 : decodeTableWord 72 0x040000000000000000 = some .step := by decide

-- The functions: 95 V6, V7, V12, V18, V20, V2, V28.

theorem test_parity_of_even_count : parity 0x1D#8 = false ∧ parity 0xFF#8 = false := by decide
theorem test_parity_of_odd_count : parity 0x19#8 = true ∧ parity 0x80#8 = true := by decide
theorem test_folds_of_V7 :
    byteFold 0xF0E10000B4A50000#64 = false ∧ wordFold 6 0x000000000000000B#64 = true ∧ bitFold 0x19#8 = true := by decide
theorem test_lfsrStep_top_bit_feeds_64 : lfsrStep 0x0000000000000001#64 0x0000000000000001 = (0x8000000000000000, true) := by
  decide
theorem test_lfsrStep_shift_is_logical : lfsrStep 0x8000000000000000#64 0x8000000000000000 = (0xC000000000000000, true) := by
  decide
theorem test_acceptable_boundaries :
    (List.map acceptable [0x1F, 0x20, 0x7E, 0x7F, 0x80, 0x00, 0x09, 0x0A, 0x0D]) =
      [false, true, true, false, false, true, false, true, true] := by decide
theorem test_recoverByte_V20 : recoverByte 0x42#8 0x1D 0x2B = (0xFE, 0x54) := by decide
theorem test_keystreamByte_V2 : keystreamByte 0x42#8 0x1D 1 = 0x85 ∧ keystreamByte 0x42#8 0x1D 2 = 0xE3 := by decide
theorem test_full_run_V28 : (decryptFull [0x2B, 0x05, 0x8E] 0x42#8 0x1D).pt = [0x54, 0x80, 0x6D, 0x00] := by decide
theorem test_decrypt_zero_byte_goes_on :
    decrypt [0x3E, 0x85, 0xA1] 0x42#8 0x1D = ⟨[0x41, 0x00, 0x42, 0x00], true, 3, 0xC7⟩ := by decide
theorem test_decrypt_rejected_at_the_last_byte :
    decrypt [0x2B, 0xFC, 0x9C] 0x42#8 0x1D = ⟨[0x54, 0x79, 0x7F, 0x00], false, 3, 0xC7⟩ := by decide

-- The commands, one step each: 95 V10, V11, V15, V25, V27, programs 3 and 5.

theorem test_wrtaps_clears_valid :
    after8 (exec (.wrtaps 0x1D) ⟨.w8, { demo with valid := true }⟩) = some { demo with valid := false } := by decide
theorem test_wrinit_does_not_reload_the_register :
    after8 (exec (.wrinit 0x00) ⟨.w8, { demo with r := some 0xC7, valid := true }⟩) =
      some { demo with init := some 0x00, r := some 0xC7, valid := false } := by decide
theorem test_load_copies_init :
    after8 (exec .load ⟨.w8, { demo with r := none }⟩) = some { demo with r := some 0x42 } := by decide
theorem test_load_refused_after_reset :
    refusalOf (exec .load ⟨.w8, fresh⟩) = some (.unwrittenRegister .init) := by decide
theorem test_step_V10_row_1 :
    after8 (exec .step ⟨.w8, { demo with r := some 0x21 }⟩) = some { demo with r := some 0x90, ks := some true } := by decide
theorem test_step_V11_row_0 :
    after64 (exec .step ⟨.w64, demo64⟩) = some { demo64 with r := some 0x8091A2B3C4D5E6F7, ks := some true } := by decide
theorem test_decrypt_rejected_V25_b :
    after8 (exec .decrypt ⟨.w8, { demo with ct := [0x2B, 0x05, 0x8E], pt := [(0, 0xAE), (2, 0x11)] }⟩) =
      some { demo with
        ct := [0x2B, 0x05, 0x8E], r := some 0xA1, acc := false, valid := true, idx := 2,
        pt := [(0, 0x54), (1, 0x80), (2, 0x00), (3, 0x00)] } := by decide
theorem test_decrypt_accepted_V27 :
    after64 (exec .decrypt ⟨.w64, demo64⟩) = some { demo64 with
      r := some 0xD1EE7B0123456789, acc := true, valid := true, idx := 3,
      pt := [(0, 0x48), (1, 0x69), (2, 0x0A), (3, 0x00)] } := by decide
theorem test_order_of_refusals :
    refusalOf (exec .decrypt ⟨.w8, fresh⟩) = some (.unwrittenRegister .init) ∧
    refusalOf (exec .step ⟨.w8, fresh⟩) = some (.unwrittenRegister .r) ∧
    refusalOf (exec .step ⟨.w8, { fresh with r := some 0x42 }⟩) = some (.unwrittenRegister .taps) := by decide

-- The step: a placed word is the next command; a reserved word is refused; with no word nothing happens.

theorem test_step_performs_the_placed_word :
    after8 (step (State.reset.withFetchWord 16 0x011D)) = some { resetBlock 8 [] with taps := some 0x1D } := by decide
theorem test_step_refuses_a_reserved_word :
    refusalOf (step (State.reset.withFetchWord 16 0x0301)) = some .reservedEncoding := by decide
theorem test_a_word_of_the_other_width_is_not_issued :
    State.reset.withFetchWord 72 0x010000000000000500 = State.reset ∧
    (State.resetOf .w64 []).withFetchWord 16 0x0500 = State.resetOf .w64 [] := by decide
theorem test_step_performs_the_placed_word_of_width_64 :
    after64 (step ((State.resetOf .w64 []).withFetchWord 72 0x01000000000000001B)) =
      some { resetBlock 64 [] with taps := some 0x1B } := by decide
theorem test_step_idles_without_a_word : nextOf (step State.reset) = some State.reset := by decide
theorem test_two_words_in_order :
    (nextOf (runFromReset .w8 [] [0x0242, 0x0300])).map (fun s => s.block.r.map BitVec.toNat) = some (some 0x42) := by decide

-- The host's side: reads, assembler, partition, poll (R27, R47, R48, 95 V38, V4).

theorem test_host_reads_the_sentinel :
    nextOf (hostRead 0 (.pt 3) { demo with pt := [(3, 0x00)] }) = some (.byte 0x00) := by decide
theorem test_host_read_above_the_space_faults : nextOf (hostRead 0 (.pt 4) demo) = none := by decide
theorem test_assemble_binary_literal_and_comment :
    assembleLine 8 ['W', 'R', 'T', 'A', 'P', 'S', ' ', '0', 'b', '1', '1', '1', '0', '1', ' ', '#', 'x'] =
      .ok [.wrtaps 29] := by rfl
theorem test_assemble_try :
    assembleLine 8 ['T', 'R', 'Y', ' ', '0', 'x', '1', 'D'] = .ok [.wrtaps 0x1D, .decrypt] := by rfl
theorem test_assemble_out_of_range :
    assembleLine 8 ['W', 'R', 'I', 'N', 'I', 'T', ' ', '2', '5', '6'] = .error .literalOutOfRange := by rfl
theorem test_a_refused_instance_stops_alone :
    execInterleaved [(0, .load), (1, .load), (0, .wrinit 0x42)]
        [⟨⟨.w8, fresh⟩, .wellFormed⟩, ⟨⟨.w8, { fresh with init := some 0x42 }⟩, .wellFormed⟩] =
      some [⟨⟨.w8, fresh⟩, .refused (.unwrittenRegister .init)⟩,
        ⟨⟨.w8, { fresh with init := some 0x42, r := some 0x42 }⟩, .wellFormed⟩] := by decide
theorem test_a_reserved_word_marks_its_instance :
    stepAt 1 [⟨⟨.w8, demo⟩, .wellFormed⟩, ⟨⟨.w8, { demo with input := [0x0000] }⟩, .wellFormed⟩] =
      some [⟨⟨.w8, demo⟩, .wellFormed⟩, ⟨⟨.w8, { demo with input := [0x0000] }⟩, .refused .reservedEncoding⟩] := by decide
theorem test_chunks_V38 :
    (List.range 3).map (fun i => (chunkStart 8 3 i, chunkEnd 8 3 i)) = [(0, 86), (86, 172), (172, 256)] := by decide
theorem test_worker_program_6 :
    emittedBy ⟨.w8, demo⟩ [0x1C, 0x1D, 0x1E, 0x1F] = [⟨0x1D, [0x54, 0x79, 0x6D]⟩] := by decide
theorem test_poll_sums_and_ands :
    poll [⟨⟨.w8, demo⟩, [], 100, true⟩, ⟨⟨.w8, demo⟩, [], 28, false⟩] = (128, false) := by decide
theorem test_half_is_fifty_percent : percentComplete 8 128 = 50 := by norm_num [percentComplete]

-- Witnesses: for each statement with hypotheses, concrete values that meet all of them together; where a statement has
-- several clauses, values for each, at the edges of their ranges.

theorem witness_MatchAndMaskSelectTheCommand :
    (0x00FF#16).toNat / 2 ^ 8 = 0x00 ∧ 0x06 ≤ (0x0600#16).toNat / 2 ^ 8 ∧ 0x06 ≤ (0xFFFF#16).toNat / 2 ^ 8 := by decide
theorem witness_OperandFieldIsTakenAsItStands :
    (({ demo with input := [0x01FF] } : Block 8).input = 0x01FF :: [] ∧ (0x01FF#16).toNat / 2 ^ 8 = 0x01) ∧
    (({ demo with input := [0x0200] } : Block 8).input = 0x0200 :: [] ∧ (0x0200#16).toNat / 2 ^ 8 = 0x02) := by decide
/-- Words at the edges of the reserved ranges, and the neighbours that are not reserved. -/
theorem witness_ReservedWordsAreRefused :
    ({ fresh with input := [0x0501, 0x0300] } : Block 8).input = 0x0501 :: [0x0300] ∧
    ([0x00FF#16, 0x0600, 0xFFFF, 0x0301, 0x05FF].map fun x => (decode 8 x).toOption) = [none, none, none, none, none] ∧
    ([0x0100#16, 0x02FF, 0x0300, 0x0500].map fun x => (decode 8 x).toOption.isSome) = [true, true, true, true] := by decide
theorem witness_DecodeAfterEncode :
    (Instr.wrtaps 0xFF).wellFormed 8 = true ∧ (Instr.wrinit 0).wellFormed 8 = true ∧
      (Instr.wrtaps (2 ^ 64 - 1)).wellFormed 64 = true ∧ Instr.load.wellFormed 64 = true := by decide
theorem witness_EncodeAfterDecode : decode 8 0x01FF = .ok (.wrtaps 0xFF) ∧ decode 8 0x0500 = .ok .decrypt :=
  ⟨rfl, rfl⟩
theorem witness_StepRunsTheDecodedCommand :
    (({ demo with input := [0x0400, 0x0600] } : Block 8).input = 0x0400 :: [0x0600] ∧ decode 8 0x0400 = .ok .step) ∧
    fresh.input = [] := ⟨⟨rfl, rfl⟩, rfl⟩
theorem witness_WordsArePerformedInIssueOrder :
    (∀ i ∈ [Instr.wrinit 0x42, .load], i.wellFormed 8 = true) ∧
    ({ fresh with input := [0x0242, 0x0300, 0x0000] } : Block 8).input =
      [Instr.wrinit 0x42, .load].map (encode 8) ++ [0x0000] := by decide
theorem witness_WrtapsWritesTaps :
    0 < 2 ^ Width.w8.bits ∧ 0xFF < 2 ^ Width.w8.bits ∧ 0xFFFFFFFFFFFFFFFF < 2 ^ Width.w64.bits := by decide
theorem witness_WrinitWritesInit :
    0 < 2 ^ Width.w8.bits ∧ 0xFF < 2 ^ Width.w8.bits ∧ 0xFFFFFFFFFFFFFFFF < 2 ^ Width.w64.bits := by decide
theorem witness_LoadReinitialisesTheRegister : fresh.init = none ∧ demo.init = some 0x42 := by decide
theorem witness_StepAdvancesTheGenerator :
    fresh.r = none ∧ (({ demo with taps := none } : Block 8).r ≠ none ∧ ({ demo with taps := none } : Block 8).taps = none) ∧
    (demo64.r = some 0x0123456789ABCDEF ∧ demo64.taps = some 0x1B) := by decide
theorem witness_DecryptWritesTheAttempt :
    fresh.init = none ∧
    (({ demo with taps := none } : Block 8).init ≠ none ∧ ({ demo with taps := none } : Block 8).taps = none) ∧
    (demo.init = some 0x42 ∧ demo.taps = some 0x1D) := by decide
theorem witness_FrameOfCommandsThatStoreNothing :
    (nextOf (exec (.wrtaps 0xFF) ⟨.w8, demo⟩)).isSome = true ∧ (nextOf (exec (.wrinit 0x00) ⟨.w8, demo⟩)).isSome = true ∧
    (nextOf (exec .load ⟨.w8, demo⟩)).isSome = true ∧ (nextOf (exec .step ⟨.w64, demo64⟩)).isSome = true := by decide
theorem witness_FrameOfDecrypt : (nextOf (exec .decrypt ⟨.w8, demo⟩)).isSome = true := by decide
theorem witness_OnlyTheNamedCommandsWrite :
    (∃ b' : Block Width.w8.bits, exec .step ⟨.w8, demo⟩ = .next ⟨.w8, b'⟩) ∧
    (after8 (exec .step ⟨.w8, demo⟩)).map (fun b => (b.r, b.ks)) = some (some 0x21, some false) ∧
    demo.r ≠ some 0x21 ∧ demo.ks ≠ some false :=
  ⟨⟨_, rfl⟩, by decide⟩
/-- Two states that agree where the statement asks it and differ everywhere else; each command completes on the first, and a
pair on which each of the three refusing commands is refused. -/
theorem witness_NothingReadsTheResults :
    (∃ c : Block 8, (c.ct = demo.ct ∧ c.taps = demo.taps ∧ c.init = demo.init ∧ c.r = demo.r) ∧
      (c.acc ≠ demo.acc ∧ c.valid ≠ demo.valid ∧ c.idx ≠ demo.idx ∧ c.ks ≠ demo.ks ∧ c.pt ≠ demo.pt) ∧
      [Instr.wrtaps 0xFF, .wrinit 0, .load, .step, .decrypt].all (fun i => (nextOf (exec i ⟨.w8, demo⟩)).isSome) = true) ∧
    ∃ c : Block 8, (c.ct = fresh.ct ∧ c.taps = fresh.taps ∧ c.init = fresh.init ∧ c.r = fresh.r) ∧ c ≠ fresh ∧
      [Instr.load, .step, .decrypt].map (fun i => refusalOf (exec i ⟨.w8, fresh⟩)) =
        [some (.unwrittenRegister .init), some (.unwrittenRegister .r), some (.unwrittenRegister .init)] :=
  ⟨⟨{ demo with acc := true, valid := true, idx := 2, ks := some true, pt := [(0, 0x41), (3, 0xFF)] }, by decide⟩,
    ⟨{ fresh with acc := true, idx := 2, ks := some true, pt := [(0, 0x41)] }, by decide⟩⟩
theorem witness_TapsHoldsWhatWasLastWritten :
    0xFF < 2 ^ Width.w8.bits ∧ (demo.r = some 0x42 ∧ demo.init = some 0x42) ∧ (∀ v, Instr.load ≠ .wrtaps v) ∧ (nextOf (exec .load ⟨.w8, demo⟩)).isSome = true ∧
    (7 < Width.w8.bits ∧ (0x1D#8).getLsbD 7 = false) := by
  refine ⟨by decide, by decide, ?_, by decide, by decide⟩
  intro v
  simp
theorem witness_InitHoldsWhatWasLastWritten :
    0xFF < 2 ^ Width.w8.bits ∧ demo.taps = some 0x1D ∧ (∀ v, Instr.decrypt ≠ .wrinit v) ∧
    (nextOf (exec .decrypt ⟨.w8, demo⟩)).isSome = true := by
  refine ⟨by decide, by decide, ?_, by decide⟩
  intro v
  simp
theorem witness_KsIsTheKeystreamBitOfTheLastStep :
    (demo.r = some 0x42 ∧ demo.taps = some 0x1D) ∧ Instr.decrypt ≠ .step ∧
    (nextOf (exec .decrypt ⟨.w8, demo⟩)).isSome = true := by decide
theorem witness_ValidIsSetByDecryptAndClearedByWrites :
    (∃ b' : Block Width.w8.bits, exec .decrypt ⟨.w8, demo⟩ = .next ⟨.w8, b'⟩) ∧
    (∃ b' : Block Width.w8.bits, exec (.wrtaps 0x1D) ⟨.w8, { demo with valid := true }⟩ = .next ⟨.w8, b'⟩) ∧
    (∃ b' : Block Width.w8.bits, exec (.wrinit 0x42) ⟨.w8, { demo with valid := true }⟩ = .next ⟨.w8, b'⟩) ∧
    (∃ b' : Block Width.w8.bits, exec .load ⟨.w8, { demo with valid := true }⟩ = .next ⟨.w8, b'⟩) ∧
    ∃ b' : Block Width.w8.bits, exec .step ⟨.w8, { demo with valid := true }⟩ = .next ⟨.w8, b'⟩ :=
  ⟨⟨_, rfl⟩, ⟨_, rfl⟩, ⟨_, rfl⟩, ⟨_, rfl⟩, ⟨_, rfl⟩⟩
/-- Rejected at the last byte (95 V25 c): `k = L - 1`. -/
theorem witness_AccAndIdxDescribeTheBuffer :
    (after8 (exec .decrypt ⟨.w8, { demo with ct := [0x2B, 0xFC, 0x9C] }⟩)).map (fun b => (b.pt, b.acc, b.idx)) =
      some ([(0, 0x54), (1, 0x79), (2, 0x7F), (3, 0x00)], false, 3) ∧
    acceptable 0x54 = true ∧ acceptable 0x79 = true ∧ acceptable 0x7F = false := by decide
theorem witness_HostReadsWhatIsHeld :
    demo.taps = some 0x1D ∧ demo.init = some 0x42 ∧ ({ demo with ks := some true } : Block 8).ks = some true ∧
    (3 ≤ demo.len ∧ Memory.read [(3, 0x00)] 3 = some 0x00) ∧ demo.len < 4 := by decide
theorem witness_ReportHoldsAllPlaintextBytes :
    demo.init = some 0x42 ∧ demo.taps = some 0x1D ∧ (nextOf (exec .decrypt ⟨.w8, demo⟩)).isSome = true := by decide
theorem witness_OneStepShiftsAndFeedsTheTop : 0 < 1 ∧ (0 < 64 ∧ 62 + 1 < 64) := by decide
theorem witness_OneStepInExactArithmetic : 0 < 1 ∧ 0 < 64 := by decide
theorem witness_DegenerateInputsOfTheGenerator :
    0 < 8 ∧ 8 ≤ 8 ∧ (0x1D#8).getLsbD 0 = true ∧ (0x02#8).getLsbD 0 = false := by decide
theorem witness_StepCommandsRunTheGenerator : demo.r = some 0x42 ∧ demo.taps = some 0x1D := by decide
theorem witness_RecoverByteXorsEightKeystreamBits : 0 < 8 ∧ 7 < 8 := by decide
/-- A rejected attempt with a tail (95 V25 b) and an accepted one (95 V25 a): both outcomes, the last byte computed, the first
of the tail. -/
theorem witness_AttemptStopsAtTheFirstRejectedByte :
    ((decrypt [0x2B, 0x05, 0x8E] 0x42#8 0x1D).acc = false ∧ (decrypt [0x2B, 0x05, 0x8E] 0x42#8 0x1D).idx = 2) ∧
    (decrypt [0x2B, 0xFC, 0x8E] 0x42#8 0x1D).acc = true := by decide
theorem witness_BitsAreTakenMostSignificantFirst :
    demo.init = some 0x42 ∧ demo.taps = some 0x1D ∧ 2 < (decrypt demo.ct 0x42#8 0x1D).idx := by decide
theorem witness_GeneratorContinuesFromTheAbortPoint :
    ({ demo with taps := some 0x02 } : Block 8).init = some 0x42 ∧
    ({ demo with taps := some 0x02 } : Block 8).taps = some 0x02 ∧ (decrypt demo.ct 0x42#8 0x02).idx = 1 := by decide
theorem witness_BytesAfterTheAbortAreNotRead :
    [0x2B, 0x05, 0xFF].length = [0x2B, 0x05, 0x8E].length ∧
    ([0x2B, 0x05, 0xFF] : List Byte).take (decrypt [0x2B, 0x05, 0x8E] 0x42#8 0x1D).idx =
      ([0x2B, 0x05, 0x8E] : List Byte).take (decrypt [0x2B, 0x05, 0x8E] 0x42#8 0x1D).idx := by decide
theorem witness_EarlyAbortKeepsThePrefix : 1 < (decrypt [0x2B, 0x05, 0x8E] 0x42#8 0x1D).idx := by decide
theorem witness_FullRunXorsWithTheKeystream : 0 < 8 ∧ ([0x2B, 0x05, 0x8E] : List Byte)[2]? = some 0x8E := by decide
theorem witness_DecryptionUndoesEncryption : 0 < 64 ∧ ([0x48, 0x69, 0x0A] : List Byte).all acceptable = true := by decide
theorem witness_CornerCasesOfAnAttempt :
    0 < 8 ∧ acceptable (recoverByte 0x42#8 0x02 0x2B).2 = false ∧ (recoverByte 0x42#8 0x1D 0x7F).2 = 0x00 ∧
    ((0x00#8) = 0 ∨ (0x1D#8) = 0) ∧ 0 < (decrypt [0x48, 0x69, 0x0A] 0x00#8 0x1D).idx := by decide
theorem witness_RejectionIsANormalResult :
    demo.init = some 0x42 ∧ ({ demo with ct := [0x2B, 0x05, 0x8E] } : Block 8).taps = some 0x1D ∧
    1 < ({ demo with ct := [0x2B, 0x05, 0x8E] } : Block 8).len ∧
    (decryptFull [0x2B, 0x05, 0x8E] 0x42#8 0x1D).pt[1]? = some 0x80 ∧ acceptable 0x80 = false := by decide
theorem witness_AttemptForgetsEarlierAttempts :
    demo.init = some 0x42 ∧ ({ demo with pt := [(0, 0xAE)], r := some 0xA1 } : Block 8).init = some 0x42 ∧
    ({ demo with pt := [(0, 0xAE)], r := some 0xA1 } : Block 8).ct = demo.ct ∧ 0xFF < 2 ^ Width.w8.bits := by decide
theorem witness_NoStepRaisesAnException :
    (Instr.wrtaps 0xFF).wellFormed 8 = true ∧ demo.taps = some 0x1D ∧ demo.init = some 0x42 ∧ demo.r = some 0x42 := by
  decide
/-- One word and one state for each reason of the list, and a word that completes. -/
theorem witness_RefusalsAreTheClosedList :
    ({ fresh with input := [0x0500] } : Block 8).input = 0x0500 :: [] ∧
    refusalOf (step ⟨.w8, { demo with input := [0x0501] }⟩) = some .reservedEncoding ∧
    refusalOf (step ⟨.w8, { fresh with input := [0x0300] }⟩) = some (.unwrittenRegister .init) ∧
    refusalOf (step ⟨.w8, { fresh with input := [0x0400] }⟩) = some (.unwrittenRegister .r) ∧
    refusalOf (step ⟨.w8, { demo with taps := none, input := [0x0400] }⟩) = some (.unwrittenRegister .taps) ∧
    refusalOf (step ⟨.w8, { fresh with input := [0x0500] }⟩) = some (.unwrittenRegister .init) ∧
    refusalOf (step ⟨.w8, { demo with taps := none, input := [0x0500] }⟩) = some (.unwrittenRegister .taps) ∧
    (nextOf (step ⟨.w8, { fresh with input := [0x01FF] }⟩)).isSome = true := by decide
theorem witness_ResetLeavesTheResetValues :
    (∃ s₀ : State, (⟨.w8, fresh⟩ : State) = s₀.applyReset) ∧ (⟨.w8, fresh⟩ : State) = State.resetOf .w8 [0x2B, 0xFC, 0x8E] ∧
    (nextOf (exec (.wrtaps 0) ⟨.w8, fresh⟩)).isSome = true :=
  ⟨⟨⟨.w8, demo⟩, by decide⟩, by decide, by decide⟩
theorem witness_ResetLeavesParametersAndOtherInstances :
    (resetAt 1 [⟨⟨.w64, demo64⟩, .wellFormed⟩, ⟨⟨.w8, demo⟩, .wellFormed⟩]).isSome = true := by decide
/-- A state with a valid result meets the invariant, and a step leads on from it. -/
theorem witness_EveryStepKeepsTheInvariant :
    State.Inv ⟨.w8, { demo with
      ct := [0x2B], valid := true, acc := true, idx := 1, pt := [(0, 0x54), (1, 0x00)], input := [0x0500] }⟩ ∧
    (nextOf (step ⟨.w8, { demo with
      ct := [0x2B], valid := true, acc := true, idx := 1, pt := [(0, 0x54), (1, 0x00)], input := [0x0500] }⟩)).isSome =
      true := by
  refine ⟨⟨⟨by decide, by decide⟩, Nat.le_refl 1, fun _ => ⟨0x1D, 0x42, rfl, rfl, ?_, by decide, by decide⟩⟩, by decide⟩
  intro i hi
  have h : i = 0 ∨ i = 1 := by
    have hlen : i ≤ 1 := hi
    omega
  rcases h with rfl | rfl <;> decide
theorem witness_ValidResultsBelongToTheCurrentTapsInEveryRun :
    (nextOf (runFromReset .w8 [0x2B, 0xFC, 0x8E] [0x0242, 0x011D, 0x0500])).map (fun s => s.block.valid) = some true := by
  decide
theorem witness_WrittenStaysWritten :
    ∃ b' : Block Width.w8.bits,
      step ⟨.w8, { demo with ks := some false, pt := [(0, 0x54)], input := [0x0400] }⟩ = .next ⟨.w8, b'⟩ ∧
      demo.taps ≠ none ∧ demo.init ≠ none ∧ demo.r ≠ none ∧ Memory.read [(0, 0x54)] 0 ≠ none :=
  ⟨_, rfl, by decide, by decide, by decide, by decide⟩
theorem witness_WidthAndCiphertextNeverChange :
    (nextOf (step ⟨.w8, { demo with input := [0x0500] }⟩)).isSome = true ∧ demo.len < 4 := by decide
theorem witness_StartUpInEitherOrder : 0xFF < 2 ^ Width.w8.bits ∧ 0 < 2 ^ Width.w8.bits := by decide
theorem witness_PseudoCommandsExpand : 0xFF < 2 ^ Width.w8.bits ∧ demo.init ≠ none := by decide
theorem witness_AssemblerKeepsOperandsInRange :
    assembleLine 8 ['S', 'E', 'E', 'D', ' ', '2', '5', '5'] = .ok [.wrinit 255, .load] ∧
    (literalValue ['0', 'x', '1', '0', '0'] = some 0x100 ∧ 2 ^ 8 ≤ 0x100) := ⟨rfl, rfl, by decide⟩
/-- Two instances on which both commands complete; an instance that refuses beside one that goes on; an interleaving that ends
in a next state on one and in a refusal on the other; a marked run. -/
theorem witness_InstancesAreIndependent :
    (execAt 0 .step [⟨⟨.w64, demo64⟩, .wellFormed⟩, ⟨⟨.w8, demo⟩, .wellFormed⟩]).isSome = true ∧ 1 ≠ 0 ∧
    ((nextOf (exec .step ⟨.w64, demo64⟩)).isSome = true ∧
      refusalOf (exec .load ⟨.w8, fresh⟩) = some (.unwrittenRegister .init)) ∧
    (∀ c ∈ [(0, Instr.load), (1, .step), (0, .wrinit 0x42)],
      c.1 < ([⟨⟨.w8, fresh⟩, .wellFormed⟩, ⟨⟨.w64, demo64⟩, .wellFormed⟩] : Instances).length) ∧
    refusalOf (execAll (commandsOf 0 [(0, .load), (1, .step), (0, .wrinit 0x42)]) ⟨.w8, fresh⟩) =
      some (.unwrittenRegister .init) ∧
    (nextOf (execAll (commandsOf 1 [(0, .load), (1, .step), (0, .wrinit 0x42)]) ⟨.w64, demo64⟩)).isSome = true ∧
    RunMark.refused .reservedEncoding ≠ .wellFormed := by decide
theorem witness_ChunksPartitionTheTapSpace : 1 ≤ 1 ∧ 1 ≤ 300 ∧ 86 ≤ 86 := by decide
theorem witness_WorkerEmitsExactlyTheAcceptedCandidates :
    demo.init = some 0x42 ∧ ∀ t ∈ [0x00, 0x1D, 0xFF], t < 2 ^ Width.w8.bits := by decide
theorem witness_SplitSearchFindsTheSameCandidates :
    1 ≤ 2 ∧ [demo, { demo with r := none }].length = 2 ∧
    (∀ c ∈ [demo, { demo with r := none }], c.ct = [0x2B, 0xFC, 0x8E] ∧ c.init = some 0x42) ∧
    demo.ct = [0x2B, 0xFC, 0x8E] ∧ demo.init = some 0x42 := by decide

end Sys2Proof.Tests
end

section
/-! What each command does to a block when it completes, said once (`Completes`, `exec_eq_next`), the rules of host reads
and of the feedback bit, and the statements about the registers and flags (spec/10_state.md R14, R15, R17, R19). -/

namespace Sys2Proof

theorem Width.bits_pos (W : Width) : 0 < W.bits := by
  cases W <;> decide

end Sys2Proof

namespace Sys2Proof.Machine

section

variable {w : Nat}

/-- An operand is used exactly when a word spells it. -/
theorem withOperand_eq_next {β : Type} {v : Nat} {k : BitVec w → Answer β} {b : β} :
    withOperand w v k = .next b ↔ v < 2 ^ w ∧ k (BitVec.ofNat w v) = .next b := by
  by_cases hv : v < 2 ^ w
  · simp [withOperand_of_lt hv, hv]
  · simp [withOperand_of_ge (Nat.le_of_not_lt hv), hv]

/-- The stores of an attempt stay inside `PT[0 .. L]`, so they complete and change `PT` alone. -/
theorem storePtFrom_decrypt (b : Block w) (iv t : BitVec w) :
    storePtFrom 0 (decrypt b.ct iv t).pt b = .next (b.setPt (Memory.writeFrom b.pt 0 (decrypt b.ct iv t).pt)) :=
  storePtFrom_inside _ _ _ (by rw [decrypt_pt_length, Block.len]; omega)

/-- The block after an attempt with initial value `iv` and tap mask `t` (R64). -/
def Block.afterAttempt (b : Block w) (iv t : BitVec w) : Block w :=
  ((((b.setPt (Memory.writeFrom b.pt 0 (decrypt b.ct iv t).pt)).setR (decrypt b.ct iv t).rEnd).setAcc
    (decrypt b.ct iv t).acc).setIdx (decrypt b.ct iv t).idx).setValid true

/-- The command takes the first block to the second: one constructor per command, each with the condition under which the
command is not refused. `exec_eq_next` ties it to the model. -/
inductive Completes : Instr → Block w → Block w → Prop where
  | wrtaps {b : Block w} {v : Nat} (hv : v < 2 ^ w) :
      Completes (.wrtaps v) b ((b.setTaps (BitVec.ofNat w v)).setValid false)
  | wrinit {b : Block w} {v : Nat} (hv : v < 2 ^ w) :
      Completes (.wrinit v) b ((b.setInit (BitVec.ofNat w v)).setValid false)
  | load {b : Block w} {iv : BitVec w} (hinit : b.init = some iv) : Completes .load b (b.setR iv)
  | step {b : Block w} {r t : BitVec w} (hr : b.r = some r) (htaps : b.taps = some t) :
      Completes .step b ((b.setR (lfsrStep r t).1).setKs (lfsrStep r t).2)
  | decrypt {b : Block w} {iv t : BitVec w} (hinit : b.init = some iv) (htaps : b.taps = some t) :
      Completes .decrypt b (b.afterAttempt iv t)

end

/-- A command answers with a next state exactly when it completes, and the width stays. -/
theorem exec_eq_next {i : Instr} {W : Width} {b : Block W.bits} {s' : State} :
    exec i ⟨W, b⟩ = .next s' ↔ ∃ b', s' = ⟨W, b'⟩ ∧ Completes i b b' := by
  constructor
  · intro h
    cases i with
    | wrtaps v =>
      rw [exec, execWrtaps, State.onBlock_eq_next] at h
      obtain ⟨b', hb, rfl⟩ := h
      obtain ⟨hv, hb⟩ := withOperand_eq_next.1 hb
      cases hb
      exact ⟨_, rfl, .wrtaps hv⟩
    | wrinit v =>
      rw [exec, execWrinit, State.onBlock_eq_next] at h
      obtain ⟨b', hb, rfl⟩ := h
      obtain ⟨hv, hb⟩ := withOperand_eq_next.1 hb
      cases hb
      exact ⟨_, rfl, .wrinit hv⟩
    | load =>
      rw [exec, execLoad, State.onBlock_eq_next] at h
      obtain ⟨b', hb, rfl⟩ := h
      obtain ⟨iv, hinit, hb⟩ := need_eq_next.1 hb
      cases hb
      exact ⟨_, rfl, .load hinit⟩
    | step =>
      rw [exec, execStep, State.onBlock_eq_next] at h
      obtain ⟨b', hb, rfl⟩ := h
      obtain ⟨r, hr, hb⟩ := need_eq_next.1 hb
      obtain ⟨t, htaps, hb⟩ := need_eq_next.1 hb
      cases hb
      exact ⟨_, rfl, .step hr htaps⟩
    | decrypt =>
      rw [exec, execDecrypt, State.onBlock_eq_next] at h
      obtain ⟨b', hb, rfl⟩ := h
      obtain ⟨iv, hinit, hb⟩ := need_eq_next.1 hb
      obtain ⟨t, htaps, hb⟩ := need_eq_next.1 hb
      rw [storePtFrom_decrypt, andThen_next] at hb
      cases hb
      exact ⟨_, rfl, .decrypt hinit htaps⟩
  · rintro ⟨b', rfl, h⟩
    cases h with
    | wrtaps hv => simp [exec, execWrtaps, withOperand_of_lt hv]
    | wrinit hv => simp [exec, execWrinit, withOperand_of_lt hv]
    | load hinit => simp [exec, execLoad, hinit]
    | step hr htaps => simp [exec, execStep, hr, htaps]
    | decrypt hinit htaps =>
      simp [exec, execDecrypt, hinit, htaps, storePtFrom_decrypt, Block.afterAttempt]

/-- The same with the next state given by its block. -/
theorem exec_next_iff {i : Instr} {W : Width} {b b' : Block W.bits} :
    exec i ⟨W, b⟩ = .next ⟨W, b'⟩ ↔ Completes i b b' := by
  simp [exec_eq_next]

section

variable {w : Nat} {i : Instr} {b b' : Block w}

/-- Only `WRTAPS` writes `TAPS` (R14). -/
theorem Completes.taps_eq (h : Completes i b b') (hi : ∀ v, i ≠ .wrtaps v) : b'.taps = b.taps := by
  cases h with
  | wrtaps hv => exact absurd rfl (hi _)
  | wrinit | load | step | decrypt => rfl

/-- Only `WRINIT` writes `INIT` (R15). -/
theorem Completes.init_eq (h : Completes i b b') (hi : ∀ v, i ≠ .wrinit v) : b'.init = b.init := by
  cases h with
  | wrinit hv => exact absurd rfl (hi _)
  | wrtaps | load | step | decrypt => rfl

/-- Only `STEP` writes `KS` (R17). -/
theorem Completes.ks_eq (h : Completes i b b') (hi : i ≠ .step) : b'.ks = b.ks := by
  cases h with
  | step hr htaps => exact absurd rfl hi
  | wrtaps | wrinit | load | decrypt => rfl

/-- No command reads `KS`: with another `KS` it completes too, and its effect differs in `KS` at most (R17). -/
theorem Completes.with_ks (h : Completes i b b') (f : Option Bool) :
    ∃ g, Completes i { b with ks := f } { b' with ks := g } := by
  cases h with
  | wrtaps hv => exact ⟨f, .wrtaps hv⟩
  | wrinit hv => exact ⟨f, .wrinit hv⟩
  | load hinit => exact ⟨f, .load hinit⟩
  | step hr htaps => exact ⟨_, .step hr htaps⟩
  | decrypt hinit htaps => exact ⟨f, .decrypt hinit htaps⟩

/-- The host reads a written `TAPS` as it stands (R13, R27). -/
theorem hostRead_taps_of_some {v : BitVec w} (h : b.taps = some v) (draw : Nat) :
    hostRead draw .taps b = .next (.word v) := by
  simp [hostRead, h]

/-- The host reads a written `INIT` as it stands (R13, R27). -/
theorem hostRead_init_of_some {v : BitVec w} (h : b.init = some v) (draw : Nat) :
    hostRead draw .init b = .next (.word v) := by
  simp [hostRead, h]

/-- The host reads a written `KS` as it stands (R13, R27). -/
theorem hostRead_ks_of_some {f : Bool} (h : b.ks = some f) (draw : Nat) :
    hostRead draw .ks b = .next (.bit f) := by
  simp [hostRead, h]

/-- A count of ones is odd exactly when the XOR of the same bits is 1 (R53). -/
theorem countOnes_odd_eq_xorBits (x : BitVec w) (n : Nat) : (countOnes x n % 2 == 1) = xorBits x n := by
  induction n with
  | zero => rfl
  | succ n ih =>
    rw [countOnes, xorBits, ← ih]
    rcases Nat.mod_two_eq_zero_or_one (countOnes x n) with h | h <;>
      cases x.getLsbD n <;> simp [Nat.add_mod, h]

/-- The parity of a word is the XOR of its bits (R53). -/
theorem parity_eq_bitFold (x : BitVec w) : parity x = bitFold x :=
  countOnes_odd_eq_xorBits x w

/-- Setting a clear tap bit adds the register bit it taps to the XOR, once the bits reach it. -/
theorem xorBits_and_or_twoPow (r t : BitVec w) {k : Nat} (hk : k < w) (ht : t.getLsbD k = false) (n : Nat) :
    xorBits (r &&& (t ||| BitVec.twoPow w k)) n = (xorBits (r &&& t) n ^^ (decide (k < n) && r.getLsbD k)) := by
  induction n with
  | zero => simp [xorBits]
  | succ n ih =>
    rw [xorBits, xorBits, ih]
    rcases Nat.lt_trichotomy k n with h | rfl | h
    · simp [h, h.ne, Nat.lt_succ_of_lt h, Bool.xor_comm, Bool.xor_left_comm]
    · simp [hk, ht, -BitVec.getLsbD_eq_getElem]
    · simp [h.not_gt, h.ne', Nat.not_lt.2 (Nat.succ_le_of_lt h)]

/-- Setting a clear tap bit makes its register bit take part in the feedback (R14, R52). -/
theorem feedback_or_twoPow (r t : BitVec w) {k : Nat} (hk : k < w) (ht : t.getLsbD k = false) :
    feedback r (t ||| BitVec.twoPow w k) = (feedback r t ^^ r.getLsbD k) := by
  rw [feedback, feedback, parity_eq_bitFold, parity_eq_bitFold, bitFold, bitFold, xorBits_and_or_twoPow r t hk ht]
  simp [hk]

/-- The feedback bit of a step stands in the top bit of the register after it (R17, R54). -/
theorem lfsrStep_top_bit (r t : BitVec w) (hw : 0 < w) : (lfsrStep r t).1.getLsbD (w - 1) = feedback r t := by
  have hshift : r.getLsbD (1 + (w - 1)) = false := BitVec.getLsbD_of_ge _ _ (by omega)
  simp [lfsrStep, hshift, hw]

end

/-- Settles O19: `WRTAPS` completes with the value in `TAPS`, on which `STEP` and `DECRYPT` then complete; no other command
writes `TAPS`. -/
theorem tapsHoldsWhatWasLastWritten : Obligations.TapsHoldsWhatWasLastWritten := by
  refine ⟨?_, ?_, ?_, fun _ => rfl⟩
  · intro W b v hv
    refine ⟨_, exec_next_iff.2 (.wrtaps hv), hostRead_taps_of_some rfl, ?_, ?_⟩
    · intro r hr
      exact ⟨_, exec_next_iff.2 (.step hr rfl), rfl⟩
    · intro iv hinit
      exact ⟨_, exec_next_iff.2 (.decrypt hinit rfl), rfl⟩
  · intro i W b b' hi h
    exact (exec_next_iff.1 h).taps_eq hi
  · intro W r t k hk ht
    have hbit : BitVec.ofNat W.bits (2 ^ k) = BitVec.twoPow W.bits k :=
      BitVec.eq_of_toNat_eq (by rw [BitVec.toNat_ofNat, BitVec.toNat_twoPow])
    rw [hbit]
    exact feedback_or_twoPow r t hk ht

/-- Settles O20: `WRINIT` completes with the value in `INIT`, on which `LOAD` and `DECRYPT` then complete; no other command
writes `INIT`. -/
theorem initHoldsWhatWasLastWritten : Obligations.InitHoldsWhatWasLastWritten := by
  refine ⟨?_, ?_, fun _ => rfl⟩
  · intro W b v hv
    refine ⟨_, exec_next_iff.2 (.wrinit hv), hostRead_init_of_some rfl, ?_, ?_⟩
    · exact ⟨_, exec_next_iff.2 (.load rfl), rfl⟩
    · intro t htaps
      exact ⟨_, exec_next_iff.2 (.decrypt rfl htaps), rfl⟩
  · intro i W b b' hi h
    exact (exec_next_iff.1 h).init_eq hi

/-- Settles O21: the bit `STEP` writes to `KS` is the one it shifts into the top of `R`; no other command writes `KS` and no
command reads it. -/
theorem ksIsTheKeystreamBitOfTheLastStep : Obligations.KsIsTheKeystreamBitOfTheLastStep := by
  refine ⟨?_, ?_, fun _ => rfl, ?_⟩
  · intro W b r t hr htaps
    refine ⟨_, _, exec_next_iff.2 (.step hr htaps), rfl, rfl, ?_, hostRead_ks_of_some rfl⟩
    rw [lfsrStep_top_bit r t W.bits_pos]
    rfl
  · intro i W b b' hi h
    exact (exec_next_iff.1 h).ks_eq hi
  · intro i W b b' f h
    obtain ⟨g, hg⟩ := (exec_next_iff.1 h).with_ks f
    exact ⟨g, exec_next_iff.2 hg⟩

/-- Settles O22: each clause reads `VALID` off the one way its command completes. -/
theorem validIsSetByDecryptAndClearedByWrites : Obligations.ValidIsSetByDecryptAndClearedByWrites := by
  refine ⟨?decrypt, ?wrtaps, ?wrinit, ?load, ?step, fun _ => rfl⟩
  case decrypt =>
    intro W b b' h
    cases exec_next_iff.1 h with
    | decrypt => rfl
  case wrtaps =>
    intro W b b' v h
    cases exec_next_iff.1 h with
    | wrtaps => rfl
  case wrinit =>
    intro W b b' v h
    cases exec_next_iff.1 h with
    | wrinit => rfl
  case load =>
    intro W b b' h
    cases exec_next_iff.1 h with
    | load => rfl
  case step =>
    intro W b b' h
    cases exec_next_iff.1 h with
    | step => rfl

end Sys2Proof.Machine
end

section
/-! The keystream bits of a run, the bits of a recovered byte, and the bytes an attempt computes, each as a lookup; and the
statement about the order in which `DECRYPT` takes and makes bits (spec/10_state.md R34). -/

namespace Sys2Proof.Machine

section

variable {w : Nat}

theorem lfsrStep_bit (r t : BitVec w) : (lfsrStep r t).2 = feedback r t := rfl

/-- A run of `m + n` steps ends where `n` steps from the register after `m` steps end. -/
theorem lfsrRun_register_add (r t : BitVec w) (m n : Nat) :
    (lfsrRun r t (m + n)).1 = (lfsrRun (lfsrRun r t m).1 t n).1 := by
  induction n with
  | zero => rfl
  | succ n ih => rw [← Nat.add_assoc, lfsrRun_succ, lfsrRun_succ, ih]

/-- Keystream bit `k` of a run is the feedback of the register after `k` steps, however long the run goes on. -/
theorem lfsrRun_getElem? (r t : BitVec w) {n k : Nat} (hk : k < n) :
    (lfsrRun r t n).2[k]? = some (feedback (lfsrRun r t k).1 t) := by
  induction n with
  | zero => exact absurd hk k.not_lt_zero
  | succ n ih =>
    rw [lfsrRun_succ]
    rcases Nat.lt_succ_iff_lt_or_eq.1 hk with h | rfl
    · rw [List.getElem?_append_left (by rwa [lfsrRun_length]), ih h]
    · rw [List.getElem?_append_right (lfsrRun_length r t k).le]
      simp [lfsrRun_length, lfsrStep_bit]

/-- After `n` bit steps the register has run `n` steps. -/
theorem recoverBits_register (r t : BitVec w) (c : Byte) (n : Nat) :
    ((List.range n).foldl (recoverBit t c) (r, 0x00)).1 = (lfsrRun r t n).1 := by
  induction n with
  | zero => rfl
  | succ n ih =>
    rw [List.range_succ, List.foldl_concat, lfsrRun_succ, ← ih]
    rfl

/-- A bit moved up to place `n` of a byte is the only one that can be set there. -/
theorem getLsbD_ofBool_shiftLeft (p : Bool) {n : Nat} (hn : n < 8) (k : Nat) :
    ((BitVec.ofBool p).setWidth 8 <<< n).getLsbD k = (decide (k = n) && p) := by
  rcases Nat.lt_trichotomy k n with h | rfl | h
  · simp [h, h.ne]
  · simp [hn]
  · simp [h.ne', h.not_gt, BitVec.getLsbD_ofBool, Nat.sub_ne_zero_of_lt h]

/-- One bit step sets bit `7 - j` of the output to the keystream bit XORed with bit `7 - j` of the ciphertext byte. -/
theorem recoverBit_getLsbD (t : BitVec w) (c : Byte) (st : BitVec w × Byte) (j k : Nat) (hw : 0 < w) :
    (recoverBit t c st j).2.getLsbD k =
      (st.2.getLsbD k || (decide (k = 7 - j) && (feedback st.1 t ^^ c.getLsbD (7 - j)))) := by
  rw [recoverBit, lfsrStep_top_bit st.1 t hw, BitVec.getLsbD_or,
    getLsbD_ofBool_shiftLeft _ (by omega)]

/-- After `n` bit steps the top `n` bits of the output are made, bit 7 first, and the others are still 0. -/
theorem recoverBits_getLsbD (r t : BitVec w) (c : Byte) (hw : 0 < w) {n : Nat} (hn : n ≤ 8) {j : Nat} (hj : j < 8) :
    ((List.range n).foldl (recoverBit t c) (r, 0x00)).2.getLsbD (7 - j) =
      (decide (j < n) && (feedback (lfsrRun r t j).1 t ^^ c.getLsbD (7 - j))) := by
  induction n with
  | zero => simp
  | succ n ih =>
    rw [List.range_succ, List.foldl_concat, recoverBit_getLsbD _ _ _ _ _ hw, ih (by omega), recoverBits_register]
    rcases Nat.lt_trichotomy j n with h | rfl | h
    · have hne : 7 - j ≠ 7 - n := by omega
      simp [h, hne, Nat.lt_succ_of_lt h]
    · simp
    · have hne : 7 - j ≠ 7 - n := by omega
      simp [hne, h.not_gt, Nat.not_lt.2 (Nat.succ_le_of_lt h)]

/-- Bit `7 - j` of a recovered byte is keystream bit `j` from the byte's first register, XORed with bit `7 - j` of the
ciphertext byte (R62). -/
theorem recoverByte_getLsbD (r t : BitVec w) (c : Byte) (hw : 0 < w) {j : Nat} (hj : j < 8) :
    (recoverByte r t c).2.getLsbD (7 - j) = (feedback (lfsrRun r t j).1 t ^^ c.getLsbD (7 - j)) := by
  have h := recoverBits_getLsbD r t c hw (Nat.le_refl 8) hj
  rwa [decide_eq_true hj, Bool.true_and] at h

/-- Byte `i` that the loop computes is recovered from ciphertext byte `i` and the register after `8 * i` steps (R63, R68). -/
theorem scan_getElem? (t : BitVec w) (cs : List Byte) (r : BitVec w) {i : Nat} (hi : i < (scan t cs r).1.length) :
    ∃ c, cs[i]? = some c ∧ (scan t cs r).1[i]? = some (recoverByte (lfsrRun r t (8 * i)).1 t c).2 := by
  induction cs generalizing r i with
  | nil => exact absurd hi i.not_lt_zero
  | cons c cs ih =>
    cases hacc : acceptable (recoverByte r t c).2 with
    | false =>
      rw [scan_cons_of_rejected t c cs r hacc] at hi ⊢
      obtain rfl : i = 0 := Nat.lt_one_iff.1 hi
      exact ⟨c, rfl, rfl⟩
    | true =>
      rw [scan_cons_of_acceptable t c cs r hacc] at hi ⊢
      cases i with
      | zero => exact ⟨c, rfl, rfl⟩
      | succ i =>
        obtain ⟨d, hd, hout⟩ := ih (recoverByte r t c).1 (Nat.lt_of_succ_lt_succ hi)
        refine ⟨d, hd, ?_⟩
        rw [recoverByte_register, ← lfsrRun_register_add, Nat.add_comm 8, ← Nat.mul_succ] at hout
        exact hout

/-- Byte `i` of those an attempt computes, the rejected one among them (R63). -/
theorem decrypt_pt_getElem?_of_lt_idx (ct : List Byte) (iv t : BitVec w) {i : Nat} (hi : i < (decrypt ct iv t).idx) :
    ∃ c, ct[i]? = some c ∧ (decrypt ct iv t).pt[i]? = some (recoverByte (lfsrRun iv t (8 * i)).1 t c).2 := by
  obtain ⟨c, hc, hout⟩ := scan_getElem? t ct iv hi
  refine ⟨c, hc, ?_⟩
  rw [decrypt, List.append_assoc, List.getElem?_append_left hi, hout]

/-- After an attempt `PT[0 .. L]` reads as the attempt's buffer (R64). -/
theorem read_afterAttempt (b : Block w) (iv t : BitVec w) {i : Nat} (hi : i ≤ b.len) :
    Memory.read (b.afterAttempt iv t).pt i = (decrypt b.ct iv t).pt[i]? := by
  have hlen : i < (decrypt b.ct iv t).pt.length := by
    rw [decrypt_pt_length]
    exact Nat.lt_succ_of_le hi
  simpa [Block.afterAttempt] using Memory.read_writeFrom_inside _ b.pt 0 hlen

end

/-- Settles O36: bit `j` of the keystream from the register after `8 * i` steps is bit `8 * i + j` of the attempt's
keystream, and it is the one that meets bit `7 - j` of byte `i`. -/
theorem bitsAreTakenMostSignificantFirst : Obligations.BitsAreTakenMostSignificantFirst := by
  intro W b iv t hinit htaps
  refine ⟨b.afterAttempt iv t, exec_next_iff.2 (.decrypt hinit htaps), fun i j hi hj => ?_⟩
  have hidx : (b.afterAttempt iv t).idx = (decrypt b.ct iv t).idx := rfl
  rw [hidx] at hi ⊢
  obtain ⟨c, hc, hp⟩ := decrypt_pt_getElem?_of_lt_idx b.ct iv t hi
  have hread := (read_afterAttempt b iv t (hi.le.trans (decrypt_idx_le b.ct iv t))).trans hp
  have hbit := recoverByte_getLsbD (lfsrRun iv t (8 * i)).1 t c W.bits_pos hj
  rw [← lfsrRun_register_add] at hbit
  exact ⟨c, _, _, hc, hread, lfsrRun_getElem? iv t (by omega), hbit⟩

end Sys2Proof.Machine
end

section
/-! The decoder in terms of the two fields of a word (`decode_eq_ok_iff`, `decode_eq_error_iff`), what a command or a word
can be refused for, and the statements about the encoding (spec/30_encoding.md R42, R43, R44, R48). -/

namespace Sys2Proof

section

variable {w : Nat}

theorem toNat_opcodeField (x : CmdWord w) : (opcodeField x).toNat = x.toNat / 2 ^ w := by
  have hlt : x.toNat / 2 ^ w < 2 ^ 8 :=
    Nat.div_lt_of_lt_mul (by simpa only [← Nat.pow_add] using x.isLt)
  rw [opcodeField, BitVec.extractLsb'_toNat, Nat.shiftRight_eq_div_pow, Nat.mod_eq_of_lt hlt]

theorem toNat_operandField (x : CmdWord w) : (operandField x).toNat = x.toNat % 2 ^ w := by
  simp [operandField]

theorem getLsbD_operandField (x : CmdWord w) {i : Nat} (hi : i < w) : (operandField x).getLsbD i = x.getLsbD i := by
  rw [operandField, BitVec.getLsbD_extractLsb']
  simp [hi]

theorem opcodeField_eq_iff {x : CmdWord w} {op : BitVec 8} : opcodeField x = op ↔ x.toNat / 2 ^ w = op.toNat := by
  rw [← BitVec.toNat_inj, toNat_opcodeField]

@[simp] theorem opcodeField_and (x y : CmdWord w) : opcodeField (x &&& y) = opcodeField x &&& opcodeField y :=
  BitVec.extractLsb'_and

@[simp] theorem operandField_and (x y : CmdWord w) : operandField (x &&& y) = operandField x &&& operandField y :=
  BitVec.extractLsb'_and

/-- A word is made of its two fields (R41). -/
theorem commandWord_fields (x : CmdWord w) : commandWord (opcodeField x) (operandField x) = x := by
  apply BitVec.eq_of_getLsbD_eq
  intro i hi
  rw [commandWord_getLsbD]
  split
  case isTrue h => exact getLsbD_operandField x h
  case isFalse h =>
    rw [opcodeField, BitVec.getLsbD_extractLsb', Nat.add_sub_cancel' (Nat.le_of_not_lt h)]
    simp [show i - w < 8 by omega]

/-- A word is the one with two given fields exactly when these are its fields (R41). -/
theorem eq_commandWord_iff {x : CmdWord w} {op : BitVec 8} {v : BitVec w} :
    x = commandWord op v ↔ opcodeField x = op ∧ operandField x = v := by
  constructor
  · rintro rfl
    simp
  · rintro ⟨rfl, rfl⟩
    exact (commandWord_fields x).symm

/-- The numbers of the table's match and mask columns are words with a zero operand field (R42). -/
theorem ofNat_shiftLeft_eq_commandWord (op : BitVec 8) :
    BitVec.ofNat (w + 8) (op.toNat <<< w) = commandWord op (0 : BitVec w) := by
  apply BitVec.eq_of_toNat_eq
  simp [commandWord, Nat.shiftLeft_eq]

theorem decodeBare_eq_ok {z : Bool} {i j : Instr} : decodeBare z i = .ok j ↔ z = true ∧ i = j := by
  cases z <;> simp [decodeBare]

theorem decodeBare_eq_error {z : Bool} {i : Instr} {e : DecodeError} : decodeBare z i = .error e ↔ z = false := by
  cases z <;> simp [decodeBare]

/-- A word spells a command exactly when its fields are the opcode and the operand of the command (R42, R43, R44). -/
theorem decode_eq_ok_iff {x : CmdWord w} {i : Instr} :
    decode w x = .ok i ↔ opcodeField x = i.opcode ∧ (operandField x).toNat = i.operand := by
  constructor
  · intro h
    unfold decode at h
    split at h
    case h_1 hop | h_2 hop =>
      cases h
      exact ⟨BitVec.eq_of_toNat_eq hop, rfl⟩
    case h_3 hop | h_4 hop | h_5 hop =>
      obtain ⟨hv, rfl⟩ := decodeBare_eq_ok.1 h
      exact ⟨BitVec.eq_of_toNat_eq hop, congrArg BitVec.toNat (eq_of_beq hv)⟩
    case h_6 => cases h
  · rintro ⟨hop, hv⟩
    cases i with
    | wrtaps v | wrinit v => simp [decode, hop, hv, Instr.opcode, Instr.operand]
    | load | step | decrypt =>
      have hzero : operandField x = 0 := BitVec.eq_of_toNat_eq hv
      simp [decode, hop, hzero, Instr.opcode, decodeBare]

/-- A word spells no command exactly when its opcode is reserved, or its command has no operand and its operand field is not
zero (R44). -/
theorem decode_eq_error_iff {x : CmdWord w} {e : DecodeError} :
    decode w x = .error e ↔
      x.toNat / 2 ^ w = 0x00 ∨ 0x06 ≤ x.toNat / 2 ^ w ∨
        (0x03 ≤ x.toNat / 2 ^ w ∧ x.toNat / 2 ^ w ≤ 0x05 ∧ x.toNat % 2 ^ w ≠ 0) := by
  have hzero : (operandField x == 0) = false ↔ (operandField x).toNat ≠ 0 := by
    rw [beq_eq_false_iff_ne, ne_eq, ← BitVec.toNat_inj]
    rfl
  rw [← toNat_opcodeField, ← toNat_operandField, ← hzero]
  unfold decode
  split
  case h_1 hop | h_2 hop => simp [hop]
  case h_3 hop | h_4 hop | h_5 hop => simp [hop, decodeBare_eq_error]
  case h_6 h1 h2 h3 h4 h5 =>
    cases e
    rw [imp_false] at h1 h2 h3 h4 h5
    exact iff_of_true rfl (by omega)

/-- Under the mask of a command with an operand, a word meets the match of the command exactly when it spells the command
with the word's low bits as operand (R42). -/
theorem operandMask_selects (x : CmdWord w) {i : Instr} (hi : i.operand = x.toNat % 2 ^ w) :
    x &&& BitVec.ofNat (w + 8) (0xFF <<< w) = BitVec.ofNat (w + 8) (i.opcode.toNat <<< w) ↔ decode w x = .ok i := by
  have hmask : BitVec.ofNat (w + 8) (0xFF <<< w) = commandWord (BitVec.allOnes 8) (0 : BitVec w) :=
    ofNat_shiftLeft_eq_commandWord (BitVec.allOnes 8)
  rw [hmask, ofNat_shiftLeft_eq_commandWord, eq_commandWord_iff, decode_eq_ok_iff, opcodeField_and,
    opcodeField_commandWord, BitVec.and_allOnes, toNat_operandField, hi]
  simp

/-- Under the mask of a command without an operand, a word meets the match of the command exactly when it spells it (R42). -/
theorem bareMask_selects (x : CmdWord w) {i : Instr} (hi : i.operand = 0) :
    x &&& BitVec.ofNat (w + 8) (2 ^ (w + 8) - 1) = BitVec.ofNat (w + 8) (i.opcode.toNat <<< w) ↔
      decode w x = .ok i := by
  have hmask : BitVec.ofNat (w + 8) (2 ^ (w + 8) - 1) = BitVec.allOnes (w + 8) :=
    BitVec.eq_of_toNat_eq (by simp)
  rw [hmask, BitVec.and_allOnes, ofNat_shiftLeft_eq_commandWord, eq_commandWord_iff, decode_eq_ok_iff, hi,
    ← BitVec.toNat_inj (x := operandField x)]
  rfl

end

/-- Settles O2: under its mask a word meets the match of a command exactly when its fields are those of the command, which
is when it decodes to the command. -/
theorem matchAndMaskSelectTheCommand : Obligations.MatchAndMaskSelectTheCommand := by
  intro w x
  refine ⟨?wrtaps, ?wrinit, ?load, ?step, ?decrypt, ?reserved⟩
  case wrtaps => exact operandMask_selects x (i := .wrtaps _) rfl
  case wrinit => exact operandMask_selects x (i := .wrinit _) rfl
  case load => exact bareMask_selects x (i := .load) rfl
  case step => exact bareMask_selects x (i := .step) rfl
  case decrypt => exact bareMask_selects x (i := .decrypt) rfl
  case reserved => exact fun h => decode_eq_error_iff.2 (h.imp_right .inl)

end Sys2Proof

namespace Sys2Proof.Machine

/-- A meaning is refused for what its block's meaning is refused for. -/
theorem State.onBlock_eq_refused {s : State} {f : Block s.width.bits → Answer (Block s.width.bits)} {r : Refusal} :
    s.onBlock f = .refused r ↔ f s.block = .refused r := by
  simp [State.onBlock, andThen_eq_refused]

/-- The reason of a command that needs a register is an unwritten register, if what it goes on to do has no other reason. -/
theorem need_refusal {α β : Type} {o : Option α} {reg : DataReg} {k : α → Answer β} {r : Refusal}
    (h : need o reg k = .refused r) (hk : ∀ v, k v = .refused r → ∃ reg', r = .unwrittenRegister reg') :
    ∃ reg', r = .unwrittenRegister reg' := by
  rcases need_eq_refused.1 h with ⟨-, hr⟩ | ⟨v, -, h⟩
  · exact ⟨reg, hr⟩
  · exact hk v h

/-- A use of an operand that has no reason of its own is refused for an operand out of range alone. -/
theorem withOperand_refusal {β : Type} {w v : Nat} {k : BitVec w → Answer β} {r : Refusal}
    (h : withOperand w v k = .refused r) (hk : ∀ x, k x ≠ .refused r) : r = .operandOutOfRange := by
  rcases Nat.lt_or_ge v (2 ^ w) with hv | hv
  · rw [withOperand_of_lt hv] at h
    exact absurd h (hk _)
  · rw [withOperand_of_ge hv] at h
    cases h
    rfl

/-- A command is refused for its operand or for an unwritten register alone (R75). -/
theorem exec_refusal {i : Instr} {s : State} {r : Refusal} (h : exec i s = .refused r) :
    r = .operandOutOfRange ∨ ∃ reg, r = .unwrittenRegister reg := by
  cases i with
  | wrtaps v =>
    rw [exec, execWrtaps, State.onBlock_eq_refused] at h
    exact .inl (withOperand_refusal h fun _ => nofun)
  | wrinit v =>
    rw [exec, execWrinit, State.onBlock_eq_refused] at h
    exact .inl (withOperand_refusal h fun _ => nofun)
  | load =>
    rw [exec, execLoad, State.onBlock_eq_refused] at h
    exact .inr (need_refusal h fun _ => nofun)
  | step =>
    rw [exec, execStep, State.onBlock_eq_refused] at h
    exact .inr (need_refusal h fun _ h => need_refusal h fun _ => nofun)
  | decrypt =>
    rw [exec, execDecrypt, State.onBlock_eq_refused] at h
    refine .inr (need_refusal h fun _ h => need_refusal h fun _ h => ?_)
    rw [storePtFrom_decrypt, andThen_next] at h
    cases h

/-- A word is refused as a reserved encoding exactly when the decoder refuses it: no command answers with that reason. -/
theorem performWord_eq_reservedEncoding {w : Nat} {x : CmdWord w} {s : State} :
    performWord x s = .refused .reservedEncoding ↔ decode w x = .error .reservedEncoding := by
  cases hx : decode w x with
  | error e => simp [performWord_of_error hx]
  | ok i =>
    rw [performWord_of_ok hx]
    constructor
    · intro h
      rcases exec_refusal h with hr | ⟨_, hr⟩ <;> cases hr
    · intro h
      cases h

/-- Two commands one after another are the first, then the second from where it leads. -/
theorem execAll_pair (i j : Instr) (s : State) : execAll [i, j] s = andThen (exec i s) (exec j) := by
  have hlast (t : State) : execAll [j] t = exec j t := by
    rw [execAll_cons]
    cases exec j t <;> rfl
  rw [execAll_cons, funext hlast]

section

variable {W : Width} {b b₁ b₂ : Block W.bits} {i j : Instr}

/-- A step performs the host's next word on the block in which it has been taken. -/
theorem step_eq_performWord {x : CmdWord W.bits} {rest : List (CmdWord W.bits)} (hin : b.input = x :: rest) :
    step ⟨W, b⟩ = performWord x ⟨W, b.setInput rest⟩ :=
  step_of_word hin

/-- A step completes when the command its word spells completes on the block without that word. -/
theorem step_of_completes {x : CmdWord W.bits} {rest : List (CmdWord W.bits)} (hin : b.input = x :: rest)
    (hx : decode W.bits x = .ok i) (h : Completes i (b.setInput rest) b₁) : step ⟨W, b⟩ = .next ⟨W, b₁⟩ := by
  rw [step_eq_performWord hin, performWord_of_ok hx, exec_next_iff.2 h]

/-- Two commands complete when the second completes on the block the first leaves. -/
theorem execAll_pair_of_completes (hi : Completes i b b₁) (hj : Completes j b₁ b₂) :
    execAll [i, j] ⟨W, b⟩ = .next ⟨W, b₂⟩ := by
  rw [execAll_pair, exec_next_iff.2 hi, andThen_next, exec_next_iff.2 hj]

end

/-- The value of the number in the operand field has the word's low bits (R43). -/
theorem getLsbD_ofNat_operandField {w : Nat} (x : CmdWord w) {i : Nat} (hi : i < w) :
    (BitVec.ofNat w (operandField x).toNat).getLsbD i = x.getLsbD i := by
  rw [BitVec.ofNat_toNat, BitVec.setWidth_eq, getLsbD_operandField x hi]

/-- Settles O3: the word spells `WRTAPS` or `WRINIT` of its operand field, and the step writes that field. -/
theorem operandFieldIsTakenAsItStands : Obligations.OperandFieldIsTakenAsItStands := by
  intro W b x rest hin
  have hlt : (operandField x).toNat < 2 ^ W.bits := (operandField x).isLt
  refine ⟨fun hop => ?wrtaps, fun hop => ?wrinit⟩
  case wrtaps =>
    have hx : decode W.bits x = .ok (.wrtaps (operandField x).toNat) :=
      decode_eq_ok_iff.2 ⟨opcodeField_eq_iff.2 hop, rfl⟩
    exact ⟨_, _, hx, toNat_operandField x, step_of_completes hin hx (.wrtaps hlt), _, rfl,
      fun _ => getLsbD_ofNat_operandField x⟩
  case wrinit =>
    have hx : decode W.bits x = .ok (.wrinit (operandField x).toNat) :=
      decode_eq_ok_iff.2 ⟨opcodeField_eq_iff.2 hop, rfl⟩
    exact ⟨_, _, hx, toNat_operandField x, step_of_completes hin hx (.wrinit hlt), _, rfl,
      fun _ => getLsbD_ofNat_operandField x⟩

/-- Settles O4: a step refuses a word as reserved exactly when the decoder does, which looks at its two fields alone. -/
theorem reservedWordsAreRefused : Obligations.ReservedWordsAreRefused := by
  intro W b x rest hin
  rw [step_eq_performWord hin, performWord_eq_reservedEncoding, decode_eq_error_iff]

/-- Settles O55: each pseudo-command is its two commands in order, and the first writes the register the second needs. -/
theorem pseudoCommandsExpand : Obligations.PseudoCommandsExpand := by
  refine ⟨fun _ => execAll_pair _ _, fun _ => execAll_pair _ _, ?tryClause, ?seedClause⟩
  case tryClause =>
    intro W b v hv hinit
    obtain ⟨iv, hinit⟩ := Option.ne_none_iff_exists'.1 hinit
    exact ⟨_, execAll_pair_of_completes (.wrtaps hv) (.decrypt hinit rfl), rfl, rfl⟩
  case seedClause =>
    intro W b v hv
    exact ⟨_, execAll_pair_of_completes (.wrinit hv) (.load rfl), rfl⟩

end Sys2Proof.Machine
end

section
/-! The word of a command as a number (`encode_eq_ofNat`), and the statements about the two configuration commands
(spec/40_config.md R49, R50). -/

namespace Sys2Proof

/-- The opcode field stands above the operand field (R41). -/
@[simp] theorem toNat_commandWord {w : Nat} (op : BitVec 8) (v : BitVec w) :
    (commandWord op v).toNat = op.toNat * 2 ^ w + v.toNat := by
  have h := Nat.div_add_mod' (commandWord op v).toNat (2 ^ w)
  rw [← toNat_opcodeField, ← toNat_operandField, opcodeField_commandWord, operandField_commandWord] at h
  exact h.symm

/-- The word of a command whose operand fits the width is `opcode * 2^W + operand` (R41, R42). -/
theorem encode_eq_ofNat {w : Nat} {i : Instr} (hi : i.operand < 2 ^ w) :
    encode w i = BitVec.ofNat (w + 8) (i.opcode.toNat * 2 ^ w + i.operand) := by
  have hnat : (encode w i).toNat = i.opcode.toNat * 2 ^ w + i.operand := by
    rw [encode, toNat_commandWord, BitVec.toNat_ofNat, Nat.mod_eq_of_lt hi]
  rw [← hnat, BitVec.ofNat_toNat, BitVec.setWidth_eq]

end Sys2Proof

namespace Sys2Proof.Machine

/-- Settles O10: an operand below `2^W` makes `WRTAPS` complete from every block, with `TAPS` and `VALID` written. -/
theorem wrtapsWritesTaps : Obligations.WrtapsWritesTaps := by
  intro W v hv
  exact ⟨encode_eq_ofNat (i := .wrtaps v) hv, fun b => exec_next_iff.2 (.wrtaps hv)⟩

/-- Settles O11: an operand below `2^W` makes `WRINIT` complete from every block, with `INIT` and `VALID` written. -/
theorem wrinitWritesInit : Obligations.WrinitWritesInit := by
  intro W v hv
  exact ⟨encode_eq_ofNat (i := .wrinit v) hv, fun b => exec_next_iff.2 (.wrinit hv)⟩

end Sys2Proof.Machine
end

section
/-! The parity as a count and as a fold, the bits of one step of the generator, the refusal of a command whose register is
unwritten (`exec_of_firstMissing`), and the statements about the generator and its two commands (spec/41_lfsr.md R52, R54,
R57, R58). -/

namespace Sys2Proof

theorem Width.bits_even (W : Width) : W.bits % 2 = 0 := by
  cases W <;> decide

end Sys2Proof

namespace Sys2Proof.Machine

section

variable {w : Nat}

/-- The loop of `popcount` counts the set bits among the low `n`. -/
theorem countOnes_eq_countP (v : BitVec w) (n : Nat) :
    countOnes v n = (List.range n).countP (fun i => v.getLsbD i) := by
  induction n with
  | zero => rfl
  | succ n ih =>
    rw [countOnes, ih, List.range_succ, List.countP_append, List.countP_singleton]
    cases v.getLsbD n <;> rfl

theorem popcount_eq_countP (v : BitVec w) : popcount v = (List.range w).countP (fun i => v.getLsbD i) :=
  countOnes_eq_countP v w

/-- The loop of `bit_fold` is the left fold of XOR over the low `n` bits. -/
theorem xorBits_eq_foldl (v : BitVec w) (n : Nat) :
    xorBits v n = (List.range n).foldl (fun p i => p ^^ v.getLsbD i) false := by
  induction n with
  | zero => rfl
  | succ n ih => rw [xorBits, ih, List.range_succ, List.foldl_concat]

@[simp] theorem popcount_zero : popcount 0#w = 0 := by
  rw [popcount_eq_countP, List.countP_eq_zero]
  simp

@[simp] theorem popcount_allOnes : popcount (BitVec.allOnes w) = w := by
  have hall : ∀ i ∈ List.range w, (BitVec.allOnes w).getLsbD i = true := by simp
  rw [popcount_eq_countP, List.countP_eq_length.2 hall, List.length_range]

@[simp] theorem feedback_zero_left (t : BitVec w) : feedback 0#w t = false := by
  simp [feedback, parity]

@[simp] theorem feedback_zero_right (r : BitVec w) : feedback r 0#w = false := by
  simp [feedback, parity]

@[simp] theorem feedback_allOnes_right (r : BitVec w) : feedback r (BitVec.allOnes w) = parity r := by
  rw [feedback, BitVec.and_allOnes]

/-- Every bit below the top is the one that stood above it (R54). -/
theorem lfsrStep_lower_bit (r t : BitVec w) {i : Nat} (hi : i + 1 < w) :
    (lfsrStep r t).1.getLsbD i = r.getLsbD (i + 1) := by
  have hbelow : i < w - 1 := by omega
  simp [lfsrStep, hbelow, Nat.add_comm 1 i]

/-- A step that feeds back 0 is a plain shift. -/
theorem lfsrStep_of_feedback_eq_false {r t : BitVec w} (h : feedback r t = false) : lfsrStep r t = (r >>> 1, false) := by
  simp [lfsrStep, h]

theorem allOnes_ushiftRight_one : BitVec.allOnes w >>> 1 = BitVec.ofNat w (2 ^ (w - 1) - 1) := by
  apply BitVec.eq_of_getLsbD_eq
  intro i hi
  simp only [BitVec.getLsbD_ushiftRight, BitVec.getLsbD_allOnes, BitVec.getLsbD_ofNat, Nat.testBit_two_pow_sub_one, hi,
    decide_true, Bool.true_and, decide_eq_decide]
  omega

end

/-- Settles O26: the loop of the parity counts the set bits, and its count is odd exactly when their XOR is 1. -/
theorem parityIsPopcountModTwo : Obligations.ParityIsPopcountModTwo := by
  intro w v r t
  refine ⟨?count, ?xor, rfl⟩
  case count => rw [parity, popcount_eq_countP, beq_iff_eq]
  case xor => rw [parity_eq_bitFold, bitFold, xorBits_eq_foldl]

/-- Settles O29: bit by bit; a register of width 1 has its top bit alone. -/
theorem oneStepShiftsAndFeedsTheTop : Obligations.OneStepShiftsAndFeedsTheTop := by
  refine ⟨fun w r t hw => ⟨rfl, fun _ => lfsrStep_lower_bit r t, lfsrStep_top_bit r t hw⟩, fun r t => ?_⟩
  apply BitVec.eq_of_getLsbD_eq
  intro i hi
  obtain rfl := Nat.lt_one_iff.1 hi
  rw [lfsrStep_top_bit r t Nat.one_pos, lfsrStep_bit]
  simp

section

variable {W : Width} {b : Block W.bits} {reg : DataReg}

theorem firstMissing_load_eq_some : firstMissing b .load = some reg ↔ b.init = none ∧ reg = .init := by
  cases hinit : b.init <;> simp [firstMissing, Block.isWritten, hinit, eq_comm]

theorem firstMissing_step_eq_some :
    firstMissing b .step = some reg ↔ (b.r = none ∧ reg = .r) ∨ (b.r ≠ none ∧ b.taps = none ∧ reg = .taps) := by
  cases hr : b.r <;> cases htaps : b.taps <;> simp [firstMissing, Block.isWritten, hr, htaps, eq_comm]

theorem firstMissing_decrypt_eq_some :
    firstMissing b .decrypt = some reg ↔
      (b.init = none ∧ reg = .init) ∨ (b.init ≠ none ∧ b.taps = none ∧ reg = .taps) := by
  cases hinit : b.init <;> cases htaps : b.taps <;> simp [firstMissing, Block.isWritten, hinit, htaps, eq_comm]

/-- A command is refused for the first register it misses (R75, R76). -/
theorem exec_of_firstMissing {i : Instr} (h : firstMissing b i = some reg) :
    exec i ⟨W, b⟩ = .refused (.unwrittenRegister reg) := by
  cases i with
  | wrtaps v | wrinit v => cases h
  | load =>
    obtain ⟨hinit, rfl⟩ := firstMissing_load_eq_some.1 h
    rw [exec, execLoad, State.onBlock_eq_refused, hinit, need_none]
  | step =>
    rw [exec, execStep, State.onBlock_eq_refused]
    rcases firstMissing_step_eq_some.1 h with ⟨hr, rfl⟩ | ⟨hr, htaps, rfl⟩
    · rw [hr, need_none]
    · obtain ⟨r, hr⟩ := Option.ne_none_iff_exists'.1 hr
      rw [hr, htaps, need_some, need_none]
  | decrypt =>
    rw [exec, execDecrypt, State.onBlock_eq_refused]
    rcases firstMissing_decrypt_eq_some.1 h with ⟨hinit, rfl⟩ | ⟨hinit, htaps, rfl⟩
    · rw [hinit, need_none]
    · obtain ⟨iv, hinit⟩ := Option.ne_none_iff_exists'.1 hinit
      rw [hinit, htaps, need_some, need_none]

end

/-- Settles O12: `LOAD` is refused for the one register it needs, and completes once that is written. -/
theorem loadReinitialisesTheRegister : Obligations.LoadReinitialisesTheRegister := by
  intro W
  refine ⟨encode_eq_ofNat (i := .load) (Nat.two_pow_pos _), fun b => ⟨fun hinit => ?refused, fun v hinit => ?completes⟩⟩
  case refused => exact exec_of_firstMissing (firstMissing_load_eq_some.2 ⟨hinit, rfl⟩)
  case completes => exact exec_next_iff.2 (.load hinit)

/-- Settles O13: `STEP` is refused for the first register it misses and completes once both are written; in the corner cases
the feedback bit is known, and where it is 0 the step is a plain shift. -/
theorem stepAdvancesTheGenerator : Obligations.StepAdvancesTheGenerator := by
  refine ⟨fun W => ⟨encode_eq_ofNat (i := .step) (Nat.two_pow_pos _), fun b => ⟨?noR, ?noTaps, ?completes⟩⟩,
    ?zeroRegister, ?noTap, ?allTaps, ?allOnes⟩
  case noR =>
    intro hr
    exact exec_of_firstMissing (firstMissing_step_eq_some.2 (.inl ⟨hr, rfl⟩))
  case noTaps =>
    intro hr htaps
    exact exec_of_firstMissing (firstMissing_step_eq_some.2 (.inr ⟨hr, htaps, rfl⟩))
  case completes =>
    intro r t hr htaps
    exact exec_next_iff.2 (.step hr htaps)
  case zeroRegister =>
    intro W t
    exact (lfsrStep_of_feedback_eq_false (feedback_zero_left t)).trans (by simp)
  case noTap =>
    intro W r
    exact lfsrStep_of_feedback_eq_false (feedback_zero_right r)
  case allTaps =>
    intro W r
    exact feedback_allOnes_right r
  case allOnes =>
    intro W
    have hfeedback : feedback (BitVec.allOnes W.bits) (BitVec.allOnes W.bits) = false := by
      simp [parity, W.bits_even]
    rw [lfsrStep_of_feedback_eq_false hfeedback, allOnes_ushiftRight_one]

end Sys2Proof.Machine
end

section
/-! How an attempt ends (`scan_outcome`), the three parts of its buffer, what `PT` reads above `L` afterwards, and the
statements about the filter, the recovery of one byte, the attempt and `DECRYPT` (spec/42_decrypt.md R61 to R64). -/

namespace Sys2Proof.Machine

theorem acceptable_iff {b : Byte} :
    acceptable b = true ↔ (0x20 ≤ b.toNat ∧ b.toNat < 0x7F) ∨ b = 0x0D ∨ b = 0x0A ∨ b = 0x00 := by
  simp [acceptable, or_assoc]

/-- Every visible code is accepted. -/
theorem acceptable_ofNat_of_visible {n : Nat} (hlo : 0x20 ≤ n) (hhi : n < 0x7F) :
    acceptable (BitVec.ofNat 8 n) = true := by
  refine acceptable_iff.2 (.inl ?_)
  rw [BitVec.toNat_ofNat]
  omega

/-- Every code above the visible ones is rejected. -/
theorem acceptable_ofNat_of_above_visible {n : Nat} (hlo : 0x7F ≤ n) (hhi : n < 0x100) :
    acceptable (BitVec.ofNat 8 n) = false := by
  rw [Bool.eq_false_iff, ne_eq, acceptable_iff]
  bv_omega

/-- The 98 accepted codes are 3 of the 32 below the visible ones, all 95 visible ones, and none above (R61). -/
theorem countP_acceptable : (List.range 256).countP (fun n => acceptable (BitVec.ofNat 8 n)) = 98 := by
  have hsplit : List.range 256 = List.range' 0 32 ++ (List.range' 32 95 ++ List.range' 127 129) := by
    rw [List.range'_append_1, List.range'_append_1, List.range_eq_range']
  have hbelow : (List.range' 0 32).countP (fun n => acceptable (BitVec.ofNat 8 n)) = 3 := by decide
  have hvisible : (List.range' 32 95).countP (fun n => acceptable (BitVec.ofNat 8 n)) = 95 := by
    refine (List.countP_eq_length.2 fun n hn => ?_).trans List.length_range'
    obtain ⟨hlo, hhi⟩ := List.mem_range'_1.1 hn
    exact acceptable_ofNat_of_visible hlo hhi
  have habove : (List.range' 127 129).countP (fun n => acceptable (BitVec.ofNat 8 n)) = 0 := by
    refine List.countP_eq_zero.2 fun n hn => ?_
    obtain ⟨hlo, hhi⟩ := List.mem_range'_1.1 hn
    simp [acceptable_ofNat_of_above_visible hlo hhi]
  rw [hsplit, List.countP_append, List.countP_append, hbelow, hvisible, habove]

section

variable {w : Nat}

/-- Each keystream bit of a run is the top bit of the register after its step (R54, R60). -/
theorem lfsrRun_succ_top_bit (r t : BitVec w) (n : Nat) (hw : 0 < w) :
    (lfsrRun r t (n + 1)).1.getLsbD (w - 1) = feedback (lfsrRun r t n).1 t := by
  rw [lfsrRun_succ, lfsrStep_top_bit _ t hw]

/-- The loop either passes the whole ciphertext through the filter, or ends with the first byte that fails it (R63). -/
theorem scan_outcome (t : BitVec w) (cs : List Byte) (r : BitVec w) :
    ((scan t cs r).2.1 = true ∧ (scan t cs r).1.length = cs.length ∧ ∀ p ∈ (scan t cs r).1, acceptable p = true) ∨
    ((scan t cs r).2.1 = false ∧ ∃ passed p, (scan t cs r).1 = passed ++ [p] ∧ (∀ q ∈ passed, acceptable q = true) ∧
      acceptable p = false) := by
  induction cs generalizing r with
  | nil => exact .inl ⟨rfl, rfl, by simp⟩
  | cons c cs ih =>
    cases hacc : acceptable (recoverByte r t c).2 with
    | false =>
      rw [scan_cons_of_rejected t c cs r hacc]
      exact .inr ⟨rfl, [], _, rfl, by simp, hacc⟩
    | true =>
      rw [scan_cons_of_acceptable t c cs r hacc]
      rcases ih (recoverByte r t c).1 with ⟨hflag, hlen, hall⟩ | ⟨hflag, passed, p, hout, hall, hp⟩
      · exact .inl ⟨hflag, congrArg (· + 1) hlen, List.forall_mem_cons.2 ⟨hacc, hall⟩⟩
      · exact .inr ⟨hflag, _ :: passed, p, congrArg (_ :: ·) hout, List.forall_mem_cons.2 ⟨hacc, hall⟩, hp⟩

/-- Every byte before the last one computed passed the filter (R63). -/
theorem scan_acceptable_before_last (t : BitVec w) (cs : List Byte) (r : BitVec w) {i : Nat} {p : Byte}
    (hi : i + 1 < (scan t cs r).1.length) (hp : (scan t cs r).1[i]? = some p) : acceptable p = true := by
  rcases scan_outcome t cs r with ⟨-, -, hall⟩ | ⟨-, passed, q, hout, hall, -⟩
  · exact hall p (List.mem_of_getElem? hp)
  · rw [hout, List.length_append, List.length_singleton] at hi
    rw [hout, List.getElem?_append_left (Nat.lt_of_succ_lt_succ hi)] at hp
    exact hall p (List.mem_of_getElem? hp)

/-- An accepted attempt computed every byte, and all of them passed the filter (R63). -/
theorem scan_accepted (t : BitVec w) (cs : List Byte) (r : BitVec w) (hflag : (scan t cs r).2.1 = true) :
    (scan t cs r).1.length = cs.length ∧ ∀ p ∈ (scan t cs r).1, acceptable p = true := by
  rcases scan_outcome t cs r with ⟨-, hall⟩ | ⟨hfalse, -⟩
  · exact hall
  · exact absurd (hfalse.symm.trans hflag) Bool.false_ne_true

/-- A rejected attempt computed the byte that failed the filter last (R63). -/
theorem scan_rejected (t : BitVec w) (cs : List Byte) (r : BitVec w) (hflag : (scan t cs r).2.1 = false) :
    ∃ p, (scan t cs r).1.getLast? = some p ∧ acceptable p = false := by
  rcases scan_outcome t cs r with ⟨htrue, -⟩ | ⟨-, passed, p, hout, -, hp⟩
  · exact absurd (hflag.symm.trans htrue) Bool.false_ne_true
  · exact ⟨p, by rw [hout, List.getLast?_concat], hp⟩

/-- The loop runs the generator 8 steps for each byte it computes (R63, R65). -/
theorem scan_register (t : BitVec w) (cs : List Byte) (r : BitVec w) :
    (scan t cs r).2.2 = (lfsrRun r t (8 * (scan t cs r).1.length)).1 := by
  induction cs generalizing r with
  | nil => rfl
  | cons c cs ih =>
    cases hacc : acceptable (recoverByte r t c).2 with
    | false =>
      rw [scan_cons_of_rejected t c cs r hacc]
      exact recoverByte_register r t c
    | true =>
      rw [scan_cons_of_acceptable t c cs r hacc]
      simp only [List.length_cons]
      rw [ih, recoverByte_register, ← lfsrRun_register_add, Nat.add_comm 8, ← Nat.mul_succ]

/-- Below `IDX` the buffer holds the bytes the loop computed (R63). -/
theorem decrypt_pt_eq_scan_of_lt_idx (ct : List Byte) (iv t : BitVec w) {i : Nat} (hi : i < (decrypt ct iv t).idx) :
    (decrypt ct iv t).pt[i]? = (scan t ct iv).1[i]? := by
  rw [decrypt, List.append_assoc, List.getElem?_append_left hi]

/-- From `IDX` on the buffer is zero up to `L - 1` (R63). -/
theorem decrypt_pt_tail (ct : List Byte) (iv t : BitVec w) {i : Nat} (hidx : (decrypt ct iv t).idx ≤ i)
    (hi : i < ct.length) : (decrypt ct iv t).pt[i]? = some 0x00 := by
  have hlen : (scan t ct iv).1.length ≤ i := hidx
  rw [decrypt, List.append_assoc, List.getElem?_append_right hlen, List.getElem?_append_left (by simp; omega),
    List.getElem?_replicate_of_lt (by omega)]

/-- The sentinel stands at index `L` in both outcomes (R63). -/
theorem decrypt_pt_sentinel (ct : List Byte) (iv t : BitVec w) : (decrypt ct iv t).pt[ct.length]? = some sentinel := by
  have hlen := scan_length_le t ct iv
  have hlast : ((scan t ct iv).1 ++ List.replicate (ct.length - (scan t ct iv).1.length) 0x00).length = ct.length := by
    rw [List.length_append, List.length_replicate]
    omega
  rw [decrypt, List.getElem?_append_right hlast.le, hlast, Nat.sub_self]
  rfl

/-- Above `L` an attempt leaves `PT` as it was (R64). -/
theorem read_afterAttempt_above (b : Block w) (iv t : BitVec w) {i : Nat} (hi : b.len < i) :
    Memory.read (b.afterAttempt iv t).pt i = Memory.read b.pt i := by
  refine Memory.read_writeFrom_outside _ _ (.inr ?_)
  rw [decrypt_pt_length, Nat.zero_add]
  exact hi

end

/-- Settles O33: the rejected bytes are the 256 less those accepted. -/
theorem acceptableBytesAreThePrintableOnes : Obligations.AcceptableBytesAreThePrintableOnes := by
  refine ⟨fun b => acceptable_iff, countP_acceptable, ?_⟩
  have hsum := List.length_eq_countP_add_countP (fun n => acceptable (BitVec.ofNat 8 n)) (l := List.range 256)
  rw [countP_acceptable, List.length_range] at hsum
  simp only [Bool.not_eq_true, Bool.decide_eq_false] at hsum
  omega

/-- Settles O34: keystream bit `j` is the feedback of the register after `j` steps, which that step puts in the top bit. -/
theorem recoverByteXorsEightKeystreamBits : Obligations.RecoverByteXorsEightKeystreamBits := by
  intro w r t c hw
  refine ⟨recoverByte_register r t c, fun j hj => ⟨_, lfsrRun_getElem? r t hj, ?_, recoverByte_getLsbD r t c hw hj⟩⟩
  exact (lfsrRun_succ_top_bit r t j hw).symm

/-- Settles O35: each clause is read off the buffer's three parts and the way the loop ends. -/
theorem attemptStopsAtTheFirstRejectedByte : Obligations.AttemptStopsAtTheFirstRejectedByte := by
  intro w ct iv t
  refine ⟨decrypt_pt_length ct iv t, decrypt_idx_le ct iv t, fun _ => decrypt_pt_getElem?_of_lt_idx ct iv t, ?beforeTheLast,
    ?accepted, ?rejected, fun _ => decrypt_pt_tail ct iv t, decrypt_pt_sentinel ct iv t, scan_register t ct iv⟩
  case beforeTheLast =>
    intro i p hi hp
    rw [decrypt_pt_eq_scan_of_lt_idx ct iv t (Nat.lt_of_succ_lt hi)] at hp
    exact scan_acceptable_before_last t ct iv hi hp
  case accepted =>
    intro hacc
    obtain ⟨hlen, hall⟩ := scan_accepted t ct iv hacc
    refine ⟨hlen, fun i p hi hp => hall p ?_⟩
    rw [decrypt_pt_eq_scan_of_lt_idx ct iv t (hi.trans_eq hlen.symm)] at hp
    exact List.mem_of_getElem? hp
  case rejected =>
    intro hacc
    obtain ⟨p, hlast, hp⟩ := scan_rejected t ct iv hacc
    have hpos : 0 < (decrypt ct iv t).idx := List.length_pos_of_mem (List.mem_of_getLast? hlast)
    refine ⟨hpos, p, ?_, hp⟩
    rw [decrypt_pt_eq_scan_of_lt_idx ct iv t (Nat.sub_one_lt_of_lt hpos), ← hlast]
    exact List.getLast?_eq_getElem?.symm

/-- Settles O14: `DECRYPT` is refused for the first register it misses; otherwise the block after it is `afterAttempt`. -/
theorem decryptWritesTheAttempt : Obligations.DecryptWritesTheAttempt := by
  intro W
  refine ⟨encode_eq_ofNat (i := .decrypt) (Nat.two_pow_pos _), fun b => ⟨?noInit, ?noTaps, ?completes⟩⟩
  case noInit =>
    intro hinit
    exact exec_of_firstMissing (firstMissing_decrypt_eq_some.2 (.inl ⟨hinit, rfl⟩))
  case noTaps =>
    intro hinit htaps
    exact exec_of_firstMissing (firstMissing_decrypt_eq_some.2 (.inr ⟨hinit, htaps, rfl⟩))
  case completes =>
    intro iv t hinit htaps
    refine ⟨_, exec_next_iff.2 (.decrypt hinit htaps), fun i hi => ?_, fun i hi => read_afterAttempt_above b iv t hi⟩
    have hlt : i < (decrypt b.ct iv t).pt.length := by
      rw [decrypt_pt_length]
      exact Nat.lt_succ_of_le hi
    have hget := List.getElem?_eq_getElem hlt
    exact ⟨_, hget, (read_afterAttempt b iv t hi).trans hget⟩

end Sys2Proof.Machine
end

section
/-! When a word is refused and when it completes (`step_eq_refused`, `step_eq_next`), the verdict of an attempt beside that
of the run to completion, the chunks of the tap space, and the statements about rejection, refusals and chunks
(spec/60_exceptions.md R73, R75, R76, R83; spec/42_decrypt.md R66). -/

namespace Sys2Proof

/-- A decoded command is one that the width has: its operand is a field of `W` bits (R43, R45). -/
theorem wellFormed_of_decode {w : Nat} {x : CmdWord w} {i : Instr} (h : decode w x = .ok i) :
    i.wellFormed w = true := by
  obtain ⟨-, hv⟩ := decode_eq_ok_iff.1 h
  have hlt : i.operand < 2 ^ w := hv ▸ (operandField x).isLt
  cases i with
  | wrtaps v | wrinit v => exact decide_eq_true hlt
  | load | step | decrypt => rfl

end Sys2Proof

namespace Sys2Proof.Machine

section

variable {W : Width} {b : Block W.bits} {i : Instr}

/-- The words that wait are no register. -/
@[simp] theorem firstMissing_setInput (xs : List (CmdWord W.bits)) (i : Instr) :
    firstMissing (b.setInput xs) i = firstMissing b i := by
  cases i <;> rfl

theorem firstMissing_load_eq_none : firstMissing b .load = none ↔ ∃ iv, b.init = some iv := by
  cases hinit : b.init <;> simp [firstMissing, Block.isWritten, hinit]

theorem firstMissing_step_eq_none :
    firstMissing b .step = none ↔ (∃ r, b.r = some r) ∧ ∃ t, b.taps = some t := by
  cases hr : b.r <;> cases htaps : b.taps <;> simp [firstMissing, Block.isWritten, hr, htaps]

theorem firstMissing_decrypt_eq_none :
    firstMissing b .decrypt = none ↔ (∃ iv, b.init = some iv) ∧ ∃ t, b.taps = some t := by
  cases hinit : b.init <;> cases htaps : b.taps <;> simp [firstMissing, Block.isWritten, hinit, htaps]

/-- A command that the width has completes once it misses no register (R75). -/
theorem exec_next_of_firstMissing_eq_none (hi : i.wellFormed W.bits = true) (h : firstMissing b i = none) :
    ∃ s', exec i ⟨W, b⟩ = .next s' := by
  cases i with
  | wrtaps v => exact ⟨_, exec_next_iff.2 (.wrtaps (of_decide_eq_true hi))⟩
  | wrinit v => exact ⟨_, exec_next_iff.2 (.wrinit (of_decide_eq_true hi))⟩
  | load =>
    obtain ⟨iv, hinit⟩ := firstMissing_load_eq_none.1 h
    exact ⟨_, exec_next_iff.2 (.load hinit)⟩
  | step =>
    obtain ⟨⟨r, hr⟩, t, htaps⟩ := firstMissing_step_eq_none.1 h
    exact ⟨_, exec_next_iff.2 (.step hr htaps)⟩
  | decrypt =>
    obtain ⟨⟨iv, hinit⟩, t, htaps⟩ := firstMissing_decrypt_eq_none.1 h
    exact ⟨_, exec_next_iff.2 (.decrypt hinit htaps)⟩

/-- No command misses a register once all three are written. -/
theorem firstMissing_of_written {t iv r : BitVec W.bits} (htaps : b.taps = some t) (hinit : b.init = some iv)
    (hr : b.r = some r) (i : Instr) : firstMissing b i = none := by
  cases i with
  | wrtaps v | wrinit v => rfl
  | load => exact firstMissing_load_eq_none.2 ⟨iv, hinit⟩
  | step => exact firstMissing_step_eq_none.2 ⟨⟨r, hr⟩, t, htaps⟩
  | decrypt => exact firstMissing_decrypt_eq_none.2 ⟨⟨iv, hinit⟩, t, htaps⟩

variable {x : CmdWord W.bits} {rest : List (CmdWord W.bits)}

/-- What a step can answer to a word, in the order of its checks: the decoder's refusal, the refusal for the first register
that is missing, or a next state (R75, R76). -/
theorem step_outcome (hin : b.input = x :: rest) :
    (decode W.bits x = .error .reservedEncoding ∧ step ⟨W, b⟩ = .refused .reservedEncoding) ∨
    (∃ i reg, decode W.bits x = .ok i ∧ firstMissing b i = some reg ∧
      step ⟨W, b⟩ = .refused (.unwrittenRegister reg)) ∨
    ∃ i, decode W.bits x = .ok i ∧ firstMissing b i = none ∧ ∃ s', step ⟨W, b⟩ = .next s' := by
  rw [step_eq_performWord hin]
  cases hx : decode W.bits x with
  | error e =>
    cases e
    exact .inl ⟨rfl, performWord_of_error hx _⟩
  | ok i =>
    rw [performWord_of_ok hx]
    cases hmiss : firstMissing b i with
    | some reg => exact .inr (.inl ⟨i, reg, rfl, hmiss, exec_of_firstMissing (by simpa using hmiss)⟩)
    | none =>
      exact .inr (.inr ⟨i, rfl, hmiss,
        exec_next_of_firstMissing_eq_none (wellFormed_of_decode hx) (by simpa using hmiss)⟩)

/-- A word is refused for what the decoder finds, or for the first register its command misses (R75, R76). -/
theorem step_eq_refused (hin : b.input = x :: rest) {reason : Refusal} :
    step ⟨W, b⟩ = .refused reason ↔
      (decode W.bits x = .error .reservedEncoding ∧ reason = .reservedEncoding) ∨
      ∃ i reg, decode W.bits x = .ok i ∧ firstMissing b i = some reg ∧ reason = .unwrittenRegister reg := by
  rcases step_outcome hin with ⟨hx, hs⟩ | ⟨i, reg, hx, hmiss, hs⟩ | ⟨i, hx, hmiss, s', hs⟩
  · simp [hs, hx, eq_comm]
  · simp [hs, hx, hmiss, eq_comm]
  · simp [hs, hx, hmiss]

/-- Every word completes whose command misses no register (R75, R76). -/
theorem step_eq_next (hin : b.input = x :: rest) :
    (∃ s', step ⟨W, b⟩ = .next s') ↔ ∃ i, decode W.bits x = .ok i ∧ firstMissing b i = none := by
  rcases step_outcome hin with ⟨hx, hs⟩ | ⟨i, reg, hx, hmiss, hs⟩ | ⟨i, hx, hmiss, s', hs⟩
  · simp [hs, hx]
  · simp [hs, hx, hmiss]
  · simp [hs, hx, hmiss]

end

/-- Settles O46: the register part of the list is the register that each command misses first. -/
theorem refusalsAreTheClosedList : Obligations.RefusalsAreTheClosedList := by
  intro W b x rest hin
  refine ⟨fun reason => ?reasons, step_eq_next hin, fun reason n hs => ?endsTheRun⟩
  case reasons =>
    rw [step_eq_refused hin, decode_eq_error_iff]
    refine or_congr_right ⟨?_, ?_⟩
    · rintro ⟨i, reg, hx, hmiss, rfl⟩
      cases i with
      | wrtaps v | wrinit v => cases hmiss
      | load =>
        obtain ⟨hinit, rfl⟩ := firstMissing_load_eq_some.1 hmiss
        exact .inl ⟨hx, hinit, rfl⟩
      | step =>
        rcases firstMissing_step_eq_some.1 hmiss with ⟨hr, rfl⟩ | ⟨hr, htaps, rfl⟩
        · exact .inr (.inl ⟨hx, hr, rfl⟩)
        · exact .inr (.inr (.inl ⟨hx, hr, htaps, rfl⟩))
      | decrypt =>
        rcases firstMissing_decrypt_eq_some.1 hmiss with ⟨hinit, rfl⟩ | ⟨hinit, htaps, rfl⟩
        · exact .inr (.inr (.inr (.inl ⟨hx, hinit, rfl⟩)))
        · exact .inr (.inr (.inr (.inr ⟨hx, hinit, htaps, rfl⟩)))
    · rintro (⟨hx, hinit, rfl⟩ | ⟨hx, hr, rfl⟩ | ⟨hx, hr, htaps, rfl⟩ | ⟨hx, hinit, rfl⟩ | ⟨hx, hinit, htaps, rfl⟩)
      · exact ⟨_, _, hx, firstMissing_load_eq_some.2 ⟨hinit, rfl⟩, rfl⟩
      · exact ⟨_, _, hx, firstMissing_step_eq_some.2 (.inl ⟨hr, rfl⟩), rfl⟩
      · exact ⟨_, _, hx, firstMissing_step_eq_some.2 (.inr ⟨hr, htaps, rfl⟩), rfl⟩
      · exact ⟨_, _, hx, firstMissing_decrypt_eq_some.2 (.inl ⟨hinit, rfl⟩), rfl⟩
      · exact ⟨_, _, hx, firstMissing_decrypt_eq_some.2 (.inr ⟨hinit, htaps, rfl⟩), rfl⟩
  case endsTheRun => rw [runSteps_succ, hs, andThen_refused]

section

variable {w : Nat}

theorem scanFull_length (t : BitVec w) (cs : List Byte) (r : BitVec w) : (scanFull t cs r).1.length = cs.length := by
  induction cs generalizing r with
  | nil => rfl
  | cons c cs ih => exact congrArg (· + 1) (ih _)

/-- The loop that stops early accepts exactly when every byte of the run to completion passes the filter (R66). -/
theorem scan_accepts_eq_all_scanFull (t : BitVec w) (cs : List Byte) (r : BitVec w) :
    (scan t cs r).2.1 = (scanFull t cs r).1.all acceptable := by
  induction cs generalizing r with
  | nil => rfl
  | cons c cs ih =>
    rw [scanFull_cons, List.all_cons]
    cases hacc : acceptable (recoverByte r t c).2 with
    | false => rw [scan_cons_of_rejected t c cs r hacc, Bool.false_and]
    | true => rw [scan_cons_of_acceptable t c cs r hacc, Bool.true_and, ih]

/-- A byte of the plaintext that fails the filter makes the attempt reject (R66, R73). -/
theorem decrypt_acc_of_unacceptable {ct : List Byte} {iv t : BitVec w} {i : Nat} {p : Byte} (hi : i < ct.length)
    (hp : (decryptFull ct iv t).pt[i]? = some p) (hacc : acceptable p = false) : (decrypt ct iv t).acc = false := by
  have hp' : (scanFull t ct iv).1[i]? = some p := by
    rwa [decryptFull, List.getElem?_append_left (by rwa [scanFull_length])] at hp
  refine (scan_accepts_eq_all_scanFull t ct iv).trans (List.all_eq_false.2 ⟨p, List.mem_of_getElem? hp', ?_⟩)
  simp [hacc]

end

/-- Settles O43: the attempt rejects, and after any attempt no register is missing. -/
theorem rejectionIsANormalResult : Obligations.RejectionIsANormalResult := by
  intro W b iv t i p hinit htaps hi hp hacc
  refine ⟨b.afterAttempt iv t, exec_next_iff.2 (.decrypt hinit htaps), decrypt_acc_of_unacceptable hi hp hacc, rfl,
    fun cmd hcmd => ?_⟩
  exact exec_next_of_firstMissing_eq_none hcmd
    (firstMissing_of_written (b := b.afterAttempt iv t) htaps hinit rfl cmd)

section

variable (w : Nat) {n : Nat}

theorem chunkSize_eq_ceilDiv (n : Nat) : chunkSize w n = 2 ^ w ⌈/⌉ n :=
  (Nat.ceilDiv_eq_add_pred_div _ _).symm

/-- `n` chunks of a size reach `2^W` exactly when the size is at least `chunk_size` (R83). -/
theorem chunkSize_le_iff (hn : 1 ≤ n) {m : Nat} : chunkSize w n ≤ m ↔ 2 ^ w ≤ n * m := by
  rw [chunkSize_eq_ceilDiv, ceilDiv_le_iff_le_mul hn]

/-- `n` chunks of a smaller size do not reach `2^W` (R83). -/
theorem lt_chunkSize_iff (hn : 1 ≤ n) {m : Nat} : m < chunkSize w n ↔ n * m < 2 ^ w :=
  lt_iff_lt_of_le_iff_le (chunkSize_le_iff w hn)

theorem chunkSize_pos (hn : 1 ≤ n) : 0 < chunkSize w n :=
  (lt_chunkSize_iff w hn).2 (Nat.two_pow_pos w)

theorem chunkEnd_eq_chunkStart_succ (n i : Nat) : chunkEnd w n i = chunkStart w n (i + 1) := rfl

theorem chunkStart_le_chunkEnd (n i : Nat) : chunkStart w n i ≤ chunkEnd w n i :=
  min_le_min_right _ (Nat.mul_le_mul_right _ i.le_succ)

/-- The chunks together end at `2^W` (R83). -/
theorem chunkStart_count (hn : 1 ≤ n) : chunkStart w n n = 2 ^ w :=
  min_eq_right ((chunkSize_le_iff w hn).1 le_rfl)

theorem mem_chunkTaps {n i t : Nat} : t ∈ chunkTaps w n i ↔ chunkStart w n i ≤ t ∧ t < chunkEnd w n i := by
  rw [chunkTaps, List.mem_range'_1, Nat.add_sub_cancel' (chunkStart_le_chunkEnd w n i)]

/-- A chunk goes on where the tap values below its start end (R83). -/
theorem range_append_chunkTaps (n i : Nat) :
    List.range (chunkStart w n i) ++ chunkTaps w n i = List.range (chunkStart w n (i + 1)) := by
  have happend := List.range'_append_1 (s := 0) (m := chunkStart w n i) (n := chunkEnd w n i - chunkStart w n i)
  rwa [Nat.zero_add, Nat.add_sub_cancel' (chunkStart_le_chunkEnd w n i), ← List.range_eq_range',
    ← List.range_eq_range'] at happend

/-- The first `m` chunks one after another are the tap values below the start of chunk `m` (R83). -/
theorem flatMap_chunkTaps (n m : Nat) : (List.range m).flatMap (chunkTaps w n) = List.range (chunkStart w n m) := by
  induction m with
  | zero => simp [chunkStart]
  | succ m ih => rw [List.range_succ, List.flatMap_append, ih, List.flatMap_singleton, range_append_chunkTaps]

end

/-- Settles O58: a chunk ends where the next begins, so the chunks in order are one rising list that ends where chunk `N`
would begin. -/
theorem chunksPartitionTheTapSpace : Obligations.ChunksPartitionTheTapSpace := by
  refine ⟨fun w n hn => ⟨?reaches, ?least, fun i => ?bounds, ?lastEnd, ?cover⟩, by decide, by decide, by decide, by decide,
    fun i hi => ?trailing⟩
  case reaches => exact (chunkSize_le_iff w hn).1 le_rfl
  case least => exact (lt_chunkSize_iff w hn).1 (Nat.sub_one_lt_of_lt (chunkSize_pos w hn))
  case bounds =>
    exact ⟨rfl, rfl, fun _ => mem_chunkTaps w, chunkStart_le_chunkEnd w n i, chunkEnd_eq_chunkStart_succ w n i⟩
  case lastEnd => rw [chunkEnd_eq_chunkStart_succ, Nat.sub_add_cancel hn, chunkStart_count w hn]
  case cover => rw [flatMap_chunkTaps, chunkStart_count w hn]
  case trailing =>
    have hsize : chunkSize 8 100 = 3 := by decide
    rw [chunkTaps, List.range'_eq_nil_iff, chunkEnd, chunkStart, hsize]
    omega

end Sys2Proof.Machine
end

section
/-! What a reset leaves in the block, whichever way the reset state is named, and the statement that no command leaves it
(spec/70_reset_and_hazards.md R87). -/

namespace Sys2Proof.Machine

/-- Every reset state holds the reset block, up to the ciphertext and the words yet to be issued (R87, R88). -/
theorem State.block_eq_resetBlock {s : State}
    (h : (∃ s₀ : State, s = s₀.applyReset) ∨ (∃ W ct, s = State.resetOf W ct) ∨ s = State.reset) :
    ∃ ct xs, s.block = (resetBlock s.width.bits ct).setInput xs := by
  obtain ⟨s₀, rfl⟩ | ⟨W, ct, rfl⟩ | rfl := h
  · exact ⟨s₀.block.ct, s₀.block.input, rfl⟩
  · exact ⟨ct, [], rfl⟩
  · exact ⟨[], [], rfl⟩

/-- A command that completes leaves a register written, the one it wrote itself (R49, R50, R57, R58, R64). -/
theorem Completes.register_written {w : Nat} {i : Instr} {b b' : Block w} (h : Completes i b b') :
    b'.taps ≠ none ∨ b'.init ≠ none ∨ b'.r ≠ none := by
  cases h with
  | wrtaps => exact .inl (Option.some_ne_none _)
  | wrinit => exact .inr (.inl (Option.some_ne_none _))
  | load | step | decrypt => exact .inr (.inr (Option.some_ne_none _))

/-- Settles O47: a reset leaves the reset block, where every register is unwritten, and a command that completes leaves a
written one. -/
theorem resetLeavesTheResetValues : Obligations.ResetLeavesTheResetValues := by
  refine ⟨fun s hs => ?values, fun i ⟨W, b⟩ s' s₀ h hreset => ?noCommand⟩
  case values =>
    obtain ⟨ct, xs, hb⟩ := State.block_eq_resetBlock hs
    rw [hb]
    exact ⟨rfl, rfl, rfl, rfl, rfl, rfl, rfl, fun _ => rfl⟩
  case noCommand =>
    obtain ⟨b', rfl, hc⟩ := exec_eq_next.1 h
    obtain ⟨ct, xs, hb⟩ := State.block_eq_resetBlock (.inl ⟨s₀, hreset⟩)
    have hunwritten : b' = (resetBlock W.bits ct).setInput xs := hb
    have hwritten := hc.register_written
    simp [hunwritten] at hwritten

end Sys2Proof.Machine
end

section
/-! A command and its word determine one another, the opcode rows in terms of the two fields of a word (`rowMatches_iff`),
and the statements about the round trip (spec/30_encoding.md R42, R45). -/

namespace Sys2Proof

/-- The width has a command exactly when its operand field can hold the operand (R43, R47). -/
theorem Instr.wellFormed_iff_operand_lt {w : Nat} {i : Instr} : i.wellFormed w = true ↔ i.operand < 2 ^ w := by
  cases i with
  | wrtaps v | wrinit v => exact decide_eq_true_iff
  | load | step | decrypt => exact iff_of_true rfl (Nat.two_pow_pos w)

/-- Settles O5: the fields of the encoded word are the opcode and the operand, which fits its field. -/
theorem decodeAfterEncode : Obligations.DecodeAfterEncode := by
  intro w i hi
  have hlt : i.operand < 2 ^ w := Instr.wellFormed_iff_operand_lt.1 hi
  rw [decode_eq_ok_iff, encode, opcodeField_commandWord, operandField_commandWord, BitVec.toNat_ofNat,
    Nat.mod_eq_of_lt hlt]
  exact ⟨rfl, rfl⟩

/-- Settles O6: the command has the word's two fields, and a word is made of its two fields. -/
theorem encodeAfterDecode : Obligations.EncodeAfterDecode := by
  intro w x i hx
  obtain ⟨hop, hv⟩ := decode_eq_ok_iff.1 hx
  refine ⟨wellFormed_of_decode hx, ?_⟩
  rw [encode, ← hop, ← hv, BitVec.ofNat_toNat, BitVec.setWidth_eq, commandWord_fields]

section

variable {w : Nat}

/-- A match is a word with a zero operand field (R42). -/
theorem matchBits_eq_commandWord (row : OpcodeRow) : matchBits w row = commandWord row.opcode (0 : BitVec w) := by
  simp [matchBits, commandWord]

/-- Both masks keep the opcode field whole; the mask of a command without an operand keeps the operand field too (R42). -/
theorem maskBits_eq_commandWord (row : OpcodeRow) :
    maskBits w row =
      commandWord (BitVec.allOnes 8) (if row.hasOperand then (0 : BitVec w) else BitVec.allOnes w) := by
  rw [maskBits]
  split
  case isTrue => simp [commandWord]
  case isFalse =>
    refine eq_commandWord_iff.2 ⟨BitVec.eq_of_getLsbD_eq fun i hi => ?_, BitVec.eq_of_getLsbD_eq fun i hi => ?_⟩
    · simp [opcodeField, hi, -BitVec.reduceAllOnes]
    · simp [operandField, hi, Nat.lt_add_right 8 hi]

/-- A word spells the command of a row exactly when its opcode is that of the row and, where the command has no operand, its
operand field is zero (R42, R44). -/
theorem rowMatches_iff {row : OpcodeRow} {x : CmdWord w} :
    rowMatches w row x = true ↔ opcodeField x = row.opcode ∧ (row.hasOperand = false → operandField x = 0) := by
  rw [rowMatches, beq_iff_eq, maskBits_eq_commandWord, matchBits_eq_commandWord, eq_commandWord_iff, opcodeField_and,
    operandField_and, opcodeField_commandWord, operandField_commandWord, BitVec.and_allOnes]
  cases row.hasOperand <;> simp

end

theorem opcodeRows_opcodes_ne : opcodeRows.Pairwise (fun row row' => row.opcode ≠ row'.opcode) := by
  decide

/-- Settles O7: two rows that match one word have the word's opcode, and no two of the five rows share an opcode. -/
theorem noWordSpellsTwoCommands : Obligations.NoWordSpellsTwoCommands := by
  refine ⟨opcodeRows_opcodes_ne.imp fun hne w x ⟨h, h'⟩ => ?disjoint, fun w i => ⟨?isRow, ?ownRow⟩⟩
  case disjoint => exact hne ((rowMatches_iff.1 h).1.symm.trans (rowMatches_iff.1 h').1)
  case isRow => cases i <;> simp [opcodeRows, Instr.row]
  case ownRow =>
    rw [rowMatches_iff, encode, opcodeField_commandWord, operandField_commandWord]
    cases i <;> simp [Instr.row, Instr.opcode, Instr.operand]

/-- Settles O1: the decoder evaluates each word. -/
theorem spelledWordsDecode : Obligations.SpelledWordsDecode := by
  exact ⟨rfl, rfl, rfl, rfl, rfl, rfl, rfl, rfl, rfl, rfl, rfl, rfl, rfl, rfl⟩

end Sys2Proof
end

section
/-! The XOR of the low bits of a word under addition, cutting and folding, the feedback as a sum, and the statements about
the folds, the step in exact arithmetic, the degenerate inputs and the `STEP` command (spec/41_lfsr.md R53, R56, R59,
R60). -/

namespace Sys2Proof.Machine

section

variable {w : Nat}

/-- The XOR of the low bits depends on these bits alone. -/
theorem xorBits_congr {v : Nat} {x : BitVec w} {y : BitVec v} {n : Nat} (h : ∀ i < n, x.getLsbD i = y.getLsbD i) :
    xorBits x n = xorBits y n := by
  induction n with
  | zero => rfl
  | succ n ih => rw [xorBits, xorBits, ih fun i hi => h i (Nat.lt_succ_of_lt hi), h n n.lt_succ_self]

/-- The XOR of the bits of a sum without carries is the sum of the two XORs. -/
theorem xorBits_xor (x y : BitVec w) (n : Nat) : xorBits (x ^^^ y) n = (xorBits x n ^^ xorBits y n) := by
  induction n with
  | zero => rfl
  | succ n ih =>
    rw [xorBits, xorBits, xorBits, ih, BitVec.getLsbD_xor, Bool.xor_assoc, Bool.xor_assoc]
    exact congrArg (xorBits x n ^^ ·) (Bool.xor_left_comm ..)

/-- The XOR of the low bits, cut in two at bit `m`. -/
theorem xorBits_add (x : BitVec w) (m n : Nat) : xorBits x (m + n) = (xorBits x m ^^ xorBits (x >>> m) n) := by
  induction n with
  | zero => simp [xorBits]
  | succ n ih =>
    rw [← Nat.add_assoc, xorBits, xorBits, ih, BitVec.getLsbD_ushiftRight, Bool.xor_assoc]

/-- The shifts of `word_fold` gather the XOR of the low `2^k` bits in bit 0, at every width (R53). -/
theorem wordFold_eq_xorBits (k : Nat) (x : BitVec w) : wordFold k x = xorBits x (2 ^ k) := by
  induction k generalizing x with
  | zero => simp [wordFold, wordFoldShifts, xorBits]
  | succ k ih =>
    calc wordFold (k + 1) x
      _ = wordFold k (x ^^^ (x >>> (2 ^ k))) := rfl
      _ = (xorBits x (2 ^ k) ^^ xorBits (x >>> (2 ^ k)) (2 ^ k)) := by rw [ih, xorBits_xor]
      _ = xorBits x (2 ^ (k + 1)) := by rw [← xorBits_add, Nat.pow_succ, Nat.mul_two]

/-- The first loop of `byte_fold` keeps the XOR of the bits of the bytes it has taken (R53). -/
theorem xorBits_xorBytes (x : BitVec w) (n : Nat) : xorBits (xorBytes x n) 8 = xorBits x (8 * n) := by
  induction n with
  | zero =>
    have hzero : xorBits (0x00 : Byte) 8 = false := by decide
    exact hzero
  | succ n ih =>
    have hbyte : xorBits (x.extractLsb' (8 * n) 8) 8 = xorBits (x >>> (8 * n)) 8 :=
      xorBits_congr fun i hi => by simp [hi]
    rw [xorBytes, xorBits_xor, ih, hbyte, ← xorBits_add, ← Nat.mul_succ]

/-- The last shifts of `byte_fold` are those of `word_fold` on one byte (R53). -/
theorem byteFold_eq_wordFold (x : BitVec w) : byteFold x = wordFold 3 (xorBytes x (w / 8)) := rfl

theorem feedback_comm (r t : BitVec w) : feedback r t = feedback t r := by
  rw [feedback, feedback, BitVec.and_comm]

/-- The feedback of a sum without carries is the sum of the two feedbacks (R52). -/
theorem feedback_xor_left (r r' t : BitVec w) : feedback (r ^^^ r') t = (feedback r t ^^ feedback r' t) := by
  have hand : (r ^^^ r') &&& t = (r &&& t) ^^^ (r' &&& t) :=
    BitVec.eq_of_toNat_eq (by simp [Nat.and_xor_distrib_right])
  simp only [feedback, parity_eq_bitFold, bitFold, hand, xorBits_xor]

/-- A step that feeds back 1 is a shift with the top bit set (R54). -/
theorem lfsrStep_of_feedback_eq_true {r t : BitVec w} (h : feedback r t = true) :
    lfsrStep r t = (r >>> 1 ||| BitVec.twoPow w (w - 1), true) := by
  have hone : (BitVec.ofBool true).setWidth w = 1#w := BitVec.eq_of_toNat_eq (by simp)
  rw [lfsrStep, h, hone, BitVec.twoPow]

/-- A register with one bit set feeds back the tap of that bit (R52). -/
theorem feedback_twoPow_left (t : BitVec w) {k : Nat} (hk : k < w) : feedback (BitVec.twoPow w k) t = t.getLsbD k := by
  have h := feedback_or_twoPow t 0#w hk BitVec.getLsbD_zero
  rwa [BitVec.zero_or, feedback_zero_right, Bool.false_xor, feedback_comm] at h

end

/-- Settles O27: `bit_fold` is the XOR of all bits; `byte_fold` is `word_fold` on the XOR of the bytes, which keeps the XOR of
the bits. -/
theorem bitAndByteFoldsAreParity : Obligations.BitAndByteFoldsAreParity := by
  refine ⟨fun w x => (parity_eq_bitFold x).symm, fun n x => ?_⟩
  calc byteFold x
    _ = wordFold 3 (xorBytes x (8 * n / 8)) := byteFold_eq_wordFold x
    _ = xorBits (xorBytes x (8 * n / 8)) 8 := wordFold_eq_xorBits 3 _
    _ = xorBits x (8 * n) := by rw [xorBits_xorBytes, Nat.mul_div_cancel_left n (by decide : 0 < 8)]
    _ = parity x := (parity_eq_bitFold x).symm

/-- Settles O28: each shift of `word_fold` halves the bits whose XOR is still to be taken. -/
theorem wordFoldIsParity : Obligations.WordFoldIsParity := by
  intro k x
  rw [wordFold_eq_xorBits, parity_eq_bitFold, bitFold]

/-- Settles O30: the shifted register lies below the weight of the feedback bit, so joining the two is adding them. -/
theorem oneStepInExactArithmetic : Obligations.OneStepInExactArithmetic := by
  intro w r t hw
  have hshift : (r >>> 1).toNat = r.toNat / 2 := by simp [Nat.shiftRight_eq_div_pow]
  have hlt : r.toNat / 2 < 2 ^ (w - 1) := by
    refine Nat.div_lt_of_lt_mul ?_
    rw [← Nat.pow_succ', Nat.succ_eq_add_one, Nat.sub_add_cancel hw]
    exact r.isLt
  refine ⟨?step, ?bound⟩
  case bound => omega
  case step =>
    cases hf : feedback r t with
    | false => simp [lfsrStep_of_feedback_eq_false hf, hshift]
    | true =>
      have hor := Nat.two_pow_add_eq_or_of_lt hlt 1
      rw [Nat.mul_one] at hor
      rw [lfsrStep_of_feedback_eq_true hf, BitVec.toNat_or, hshift, BitVec.toNat_twoPow_of_lt (Nat.sub_one_lt_of_lt hw),
        if_pos rfl, Nat.or_comm, ← hor, Nat.add_comm]

section

variable {w : Nat}

/-- A register of which nothing is fed back keeps shifting out (R59). -/
theorem lfsrRun_zero_taps (r : BitVec w) (n : Nat) : lfsrRun r 0#w n = (r >>> n, List.replicate n false) := by
  induction n with
  | zero => simp
  | succ n ih =>
    rw [lfsrRun_succ, ih, lfsrStep_of_feedback_eq_false (feedback_zero_right _), ← BitVec.shiftRight_add,
      List.replicate_succ']

/-- When two registers have the same next register they agree on all but bit 0, and their feedback is the same (R59). -/
theorem eq_of_lfsrStep_eq {r r' t : BitVec w} (hw : 0 < w) (ht : t.getLsbD 0 = true)
    (h : (lfsrStep r t).1 = (lfsrStep r' t).1) : r = r' := by
  have hfeedback : feedback r t = feedback r' t := by
    rw [← lfsrStep_top_bit r t hw, h, lfsrStep_top_bit r' t hw]
  have hupper : ∀ i, i + 1 < w → r.getLsbD (i + 1) = r'.getLsbD (i + 1) := by
    intro i hi
    rw [← lfsrStep_lower_bit r t hi, h, lfsrStep_lower_bit r' t hi]
  have hlow : r.getLsbD 0 = r'.getLsbD 0 := by
    by_contra hne
    have hflip : r = r' ^^^ BitVec.twoPow w 0 := by
      apply BitVec.eq_of_getLsbD_eq
      intro i hi
      cases i with
      | zero => simpa [hw, -BitVec.getLsbD_eq_getElem, Bool.eq_not] using hne
      | succ i => simpa [-BitVec.getLsbD_eq_getElem] using hupper i hi
    rw [hflip, feedback_xor_left, feedback_twoPow_left t hw, ht] at hfeedback
    simp at hfeedback
  apply BitVec.eq_of_getLsbD_eq
  intro i hi
  cases i with
  | zero => exact hlow
  | succ i => exact hupper i hi

/-- When bit 0 does not tap, it is lost: flipping it changes neither half of the step (R59). -/
theorem lfsrStep_xor_twoPow_zero (r : BitVec w) {t : BitVec w} (hw : 0 < w) (ht : t.getLsbD 0 = false) :
    lfsrStep (r ^^^ BitVec.twoPow w 0) t = lfsrStep r t := by
  have hfeedback : feedback (r ^^^ BitVec.twoPow w 0) t = feedback r t := by
    rw [feedback_xor_left, feedback_twoPow_left t hw, ht, Bool.xor_false]
  have hshift : (r ^^^ BitVec.twoPow w 0) >>> 1 = r >>> 1 := by
    apply BitVec.eq_of_getLsbD_eq
    intro i hi
    simp [-BitVec.getLsbD_eq_getElem, Nat.add_comm 1 i]
  rw [lfsrStep, lfsrStep, hfeedback, hshift]

end

/-- Settles O31: bit 0 enters the next register through the feedback alone, and does so exactly when it taps. -/
theorem degenerateInputsOfTheGenerator : Obligations.DegenerateInputsOfTheGenerator := by
  intro w t hw
  refine ⟨?zeroRegister, lfsrRun_zero_taps, fun r n hn => ?shiftedOut, fun ht r r' => eq_of_lfsrStep_eq hw ht,
    fun ht r => ?bitZero⟩
  case zeroRegister => exact (lfsrStep_of_feedback_eq_false (feedback_zero_left t)).trans (by simp)
  case shiftedOut =>
    exact (congrArg Prod.fst (lfsrRun_zero_taps r n)).trans (BitVec.ushiftRight_eq_zero hn)
  case bitZero =>
    have hone : BitVec.ofNat w 1 = BitVec.twoPow w 0 := (BitVec.shiftLeft_zero _).symm
    rw [hone, lfsrStep_xor_twoPow_zero r hw ht]

/-- Commands one after another, cut in two (R38). -/
theorem execAll_append (cmds cmds' : List Instr) (s : State) :
    execAll (cmds ++ cmds') s = andThen (execAll cmds s) (execAll cmds') := by
  induction cmds generalizing s with
  | nil => rfl
  | cons i cmds ih =>
    rw [List.cons_append, execAll_cons, execAll_cons]
    cases exec i s with
    | next s' => exact ih s'
    | fault f => rfl
    | refused r => rfl

/-- The commands go on from the block that the first one leaves (R38). -/
theorem execAll_cons_of_completes {W : Width} {b b' : Block W.bits} {i : Instr} (h : Completes i b b')
    (cmds : List Instr) : execAll (i :: cmds) ⟨W, b⟩ = execAll cmds ⟨W, b'⟩ := by
  rw [execAll_cons, exec_next_iff.2 h, andThen_next]

section

variable {W : Width}

/-- The block after `n` steps of the generator with tap mask `t` from register `r` (R60). -/
def Block.afterSteps {w : Nat} (b : Block w) (r t : BitVec w) (n : Nat) : Block w :=
  { b with
    r := some (lfsrRun r t n).1
    ks := if n = 0 then b.ks else (lfsrRun r t n).2.getLast? }

/-- One more `STEP` is one more step of the generator (R58, R60). -/
theorem completes_step_afterSteps {w : Nat} {b : Block w} {t : BitVec w} (htaps : b.taps = some t) (r : BitVec w)
    (n : Nat) : Completes .step (b.afterSteps r t n) (b.afterSteps r t (n + 1)) := by
  have hstep := Completes.step (b := b.afterSteps r t n) (r := (lfsrRun r t n).1) (t := t) rfl htaps
  simpa [Block.afterSteps, Block.setR, Block.setKs, lfsrRun_succ] using hstep

/-- `STEP` commands in a row run the generator (R60). -/
theorem execAll_replicate_step {b : Block W.bits} {r t : BitVec W.bits} (hr : b.r = some r) (htaps : b.taps = some t)
    (n : Nat) : execAll (List.replicate n .step) ⟨W, b⟩ = .next ⟨W, b.afterSteps r t n⟩ := by
  induction n with
  | zero => simp [Block.afterSteps, ← hr]
  | succ n ih =>
    rw [List.replicate_succ', execAll_append, ih, andThen_next,
      execAll_cons_of_completes (completes_step_afterSteps htaps r n), execAll_nil]

end

/-- Settles O32: the last `STEP` of a row advances the register that the run so far has left. -/
theorem stepCommandsRunTheGenerator : Obligations.StepCommandsRunTheGenerator := by
  intro W b r t n hr htaps
  exact execAll_replicate_step hr htaps n

end Sys2Proof.Machine
end

section
/-! The keystream byte and the byte a step of the loop recovers, the run to completion beside the attempt, and the statements
about the two (spec/42_decrypt.md R62, R66, R67, R69, R70). -/

namespace Sys2Proof.Machine

section

variable {w : Nat}

/-- The bits of a run of `m + n` steps are those of the first `m`, then those of the `n` from where these end (R60). -/
theorem lfsrRun_bits_add (r t : BitVec w) (m n : Nat) :
    (lfsrRun r t (m + n)).2 = (lfsrRun r t m).2 ++ (lfsrRun (lfsrRun r t m).1 t n).2 := by
  induction n with
  | zero => simp
  | succ n ih => rw [← Nat.add_assoc, lfsrRun_succ, lfsrRun_succ, ih, lfsrRun_register_add, List.append_assoc]

/-- Keystream byte `i` is made of the 8 bits from the register after `8 * i` steps on (R67). -/
theorem keystreamByte_eq (r t : BitVec w) (i : Nat) :
    keystreamByte r t i = byteOfBits (lfsrRun (lfsrRun r t (8 * i)).1 t 8).2 := by
  rw [keystreamByte, lfsrRun_bits_add, List.drop_left' (lfsrRun_length r t (8 * i))]

theorem byteOfBits_concat (bs : List Bool) (f : Bool) :
    byteOfBits (bs ++ [f]) = byteOfBits bs <<< 1 ||| (BitVec.ofBool f).setWidth 8 := by
  rw [byteOfBits, byteOfBits, List.foldl_concat]

/-- Bit `k` of the byte of some bits is the one that stands `k` places before the last (R62). -/
theorem byteOfBits_getLsbD (bs : List Bool) {k : Nat} (hk : k < 8) :
    (byteOfBits bs).getLsbD k = bs.reverse[k]?.getD false := by
  induction bs using List.reverseRecOn generalizing k with
  | nil => simp [byteOfBits]
  | append_singleton bs f ih =>
    rw [byteOfBits_concat, List.reverse_concat]
    cases k with
    | zero => simp
    | succ k =>
      simp [hk, ← ih (Nat.lt_of_succ_lt hk), -BitVec.getLsbD_eq_getElem]

/-- A recovered byte is the ciphertext byte XORed with the byte of its eight keystream bits (R62). -/
theorem recoverByte_eq_xor (r t : BitVec w) (c : Byte) (hw : 0 < w) :
    (recoverByte r t c).2 = c ^^^ byteOfBits (lfsrRun r t 8).2 := by
  apply BitVec.eq_of_getLsbD_eq
  intro k hk
  have hbit := recoverByte_getLsbD r t c hw (j := 7 - k) (by omega)
  have hplace : 7 - (7 - k) = k := by omega
  have hkey : (lfsrRun r t 8).2.reverse[k]? = some (feedback (lfsrRun r t (7 - k)).1 t) := by
    rw [List.getElem?_reverse (by rwa [lfsrRun_length]), lfsrRun_length, Nat.sub_right_comm,
      lfsrRun_getElem? r t (by omega)]
  rw [hplace] at hbit
  rw [hbit, BitVec.getLsbD_xor, byteOfBits_getLsbD _ hk, hkey, Option.getD_some, Bool.xor_comm]

/-- Byte `i` of the run to completion is recovered from ciphertext byte `i` and the register after `8 * i` steps (R66). -/
theorem scanFull_getElem? (t : BitVec w) (cs : List Byte) (r : BitVec w) (i : Nat) :
    (scanFull t cs r).1[i]? = cs[i]?.map fun c => (recoverByte (lfsrRun r t (8 * i)).1 t c).2 := by
  induction cs generalizing r i with
  | nil => rfl
  | cons c cs ih =>
    cases i with
    | zero => rfl
    | succ i =>
      rw [scanFull_cons, List.getElem?_cons_succ, List.getElem?_cons_succ, ih, recoverByte_register,
        ← lfsrRun_register_add, Nat.add_comm 8, ← Nat.mul_succ]

/-- Below `L` the buffer of the run to completion holds its bytes (R66). -/
theorem decryptFull_pt_eq_scanFull (ct : List Byte) (iv t : BitVec w) {i : Nat} (hi : i < ct.length) :
    (decryptFull ct iv t).pt[i]? = (scanFull t ct iv).1[i]? := by
  rw [decryptFull, List.getElem?_append_left (by rwa [scanFull_length])]

/-- The run to completion XORs the ciphertext with the keystream bytes (R67). -/
theorem scanFull_eq_mapIdx (ct : List Byte) (iv t : BitVec w) (hw : 0 < w) :
    (scanFull t ct iv).1 = ct.mapIdx fun i c => c ^^^ keystreamByte iv t i := by
  apply List.ext_getElem?
  intro i
  rw [scanFull_getElem?, List.getElem?_mapIdx]
  simp only [recoverByte_eq_xor _ _ _ hw, keystreamByte_eq]

/-- The bytes the attempt computes begin the run to completion (R66). -/
theorem scan_prefix_scanFull (t : BitVec w) (cs : List Byte) (r : BitVec w) :
    (scan t cs r).1 <+: (scanFull t cs r).1 := by
  induction cs generalizing r with
  | nil => exact List.prefix_rfl
  | cons c cs ih =>
    rw [scanFull_cons]
    cases hacc : acceptable (recoverByte r t c).2 with
    | false =>
      rw [scan_cons_of_rejected t c cs r hacc]
      exact List.prefix_append [_] _
    | true =>
      rw [scan_cons_of_acceptable t c cs r hacc]
      exact List.cons_prefix_cons.2 ⟨rfl, ih _⟩

/-- A byte the attempt computes, the rejected one among them, is that of the run to completion (R66). -/
theorem decrypt_pt_eq_scanFull_of_lt_idx (ct : List Byte) (iv t : BitVec w) {i : Nat} (hi : i < (decrypt ct iv t).idx) :
    (decrypt ct iv t).pt[i]? = (scanFull t ct iv).1[i]? := by
  obtain ⟨rest, hrest⟩ := scan_prefix_scanFull t ct iv
  rw [decrypt_pt_eq_scan_of_lt_idx ct iv t hi, ← hrest, List.getElem?_append_left hi]

/-- An attempt accepts exactly when every byte of the run to completion passes the filter (R66). -/
theorem decrypt_acc_eq_all_scanFull (ct : List Byte) (iv t : BitVec w) :
    (decrypt ct iv t).acc = (scanFull t ct iv).1.all acceptable :=
  scan_accepts_eq_all_scanFull t ct iv

/-- The loop reads no ciphertext byte beyond those it computes (R65, R70). -/
theorem scan_congr_prefix (t : BitVec w) {cs cs' : List Byte} (r : BitVec w) (hlen : cs'.length = cs.length)
    (htake : cs'.take (scan t cs r).1.length = cs.take (scan t cs r).1.length) : scan t cs' r = scan t cs r := by
  induction cs generalizing cs' r with
  | nil => rw [List.length_eq_zero_iff.1 hlen]
  | cons c cs ih =>
    obtain ⟨c', cs', rfl⟩ := List.exists_cons_of_length_eq_add_one hlen
    have hlen' : cs'.length = cs.length := Nat.succ.inj hlen
    cases hacc : acceptable (recoverByte r t c).2 with
    | false =>
      rw [scan_cons_of_rejected t c cs r hacc] at htake ⊢
      obtain rfl : c' = c := by simpa using htake
      rw [scan_cons_of_rejected t c' cs' r hacc]
    | true =>
      rw [scan_cons_of_acceptable t c cs r hacc] at htake ⊢
      obtain ⟨rfl, htake'⟩ : c' = c ∧ _ := List.cons.inj htake
      rw [scan_cons_of_acceptable t c' cs' r hacc, ih _ hlen' htake']

/-- An attempt that accepts is the run to completion (R66). -/
theorem decrypt_of_accepted {ct : List Byte} {iv t : BitVec w} (hacc : (scanFull t ct iv).1.all acceptable = true) :
    decrypt ct iv t =
      { pt := (scanFull t ct iv).1 ++ [sentinel], acc := true, idx := ct.length,
        rEnd := (lfsrRun iv t (8 * ct.length)).1 } := by
  have hflag : (scan t ct iv).2.1 = true := (scan_accepts_eq_all_scanFull t ct iv).trans hacc
  obtain ⟨hlen, -⟩ := scan_accepted t ct iv hflag
  have hbytes : (scan t ct iv).1 = (scanFull t ct iv).1 :=
    (scan_prefix_scanFull t ct iv).eq_of_length (hlen.trans (scanFull_length t ct iv).symm)
  have hreg := scan_register t ct iv
  rw [hlen] at hreg
  simp [decrypt, hflag, hreg, hbytes ▸ hlen, hbytes]

/-- A keystream byte made where nothing is fed back is zero (R69). -/
theorem keystreamByte_of_no_feedback {r t : BitVec w} (h : ∀ n, feedback (lfsrRun r t n).1 t = false) (i : Nat) :
    keystreamByte r t i = 0x00 := by
  have hbits : (lfsrRun r t (8 * i + 8)).2.drop (8 * i) = List.replicate 8 false := by
    refine List.eq_replicate_iff.2 ⟨by simp [lfsrRun_length], fun f hf => ?_⟩
    obtain ⟨k, hk, rfl⟩ := List.mem_iff_getElem.1 (List.mem_of_mem_drop hf)
    rw [lfsrRun_length] at hk
    rw [(List.getElem?_eq_some_iff.1 (lfsrRun_getElem? r t hk)).2, h k]
  rw [keystreamByte, hbits]
  rfl

/-- Where nothing is fed back the run to completion gives the ciphertext (R69). -/
theorem scanFull_of_no_feedback {iv t : BitVec w} (hw : 0 < w) (h : ∀ n, feedback (lfsrRun iv t n).1 t = false)
    (ct : List Byte) : (scanFull t ct iv).1 = ct := by
  rw [scanFull_eq_mapIdx ct iv t hw]
  apply List.ext_getElem?
  intro i
  simp [keystreamByte_of_no_feedback h]

/-- From the zero register, and with no tap, nothing is ever fed back (R59). -/
theorem no_feedback_of_zero {iv t : BitVec w} (h : iv = 0 ∨ t = 0) (n : Nat) :
    feedback (lfsrRun iv t n).1 t = false := by
  rcases h with rfl | rfl
  · have hzero : (lfsrRun 0#w t n).1 = 0#w := by
      induction n with
      | zero => rfl
      | succ n ih => simp [lfsrRun_succ, ih, lfsrStep_of_feedback_eq_false]
    exact hzero ▸ feedback_zero_left t
  · exact feedback_zero_right _

end

/-- Settles O38: the loop is the same on two ciphertexts that agree on the bytes it reads. -/
theorem bytesAfterTheAbortAreNotRead : Obligations.BytesAfterTheAbortAreNotRead := by
  intro w ct ct' iv t hlen htake
  rw [decrypt, decrypt, scan_congr_prefix t iv hlen htake, hlen]

/-- Settles O39: the bytes computed begin the run to completion, whose filter decides the outcome of both. -/
theorem earlyAbortKeepsThePrefix : Obligations.EarlyAbortKeepsThePrefix := by
  intro w ct iv t
  refine ⟨fun i hi => ?computed, decrypt_acc_eq_all_scanFull ct iv t, ?sentinel, rfl⟩
  case computed =>
    rw [decrypt_pt_eq_scanFull_of_lt_idx ct iv t hi,
      decryptFull_pt_eq_scanFull ct iv t (hi.trans_le (decrypt_idx_le ct iv t))]
  case sentinel =>
    have hlen := scanFull_length t ct iv
    rw [decrypt_pt_sentinel, decryptFull, List.getElem?_append_right hlen.le, hlen, Nat.sub_self]
    rfl

/-- Settles O40: bit by bit for one byte; byte `i` is recovered from the register after `8 * i` steps. -/
theorem fullRunXorsWithTheKeystream : Obligations.FullRunXorsWithTheKeystream := by
  refine ⟨fun w r t c hw => recoverByte_eq_xor r t c hw, fun w ct iv t i c hw hc => ?_⟩
  have hi : i < ct.length := (List.getElem?_eq_some_iff.1 hc).1
  rw [decryptFull_pt_eq_scanFull ct iv t hi, scanFull_eq_mapIdx ct iv t hw, List.getElem?_mapIdx, hc, Option.map_some]

/-- The run to completion over an encrypted plaintext gives the plaintext (R67). -/
theorem scanFull_encrypted {w : Nat} (plain : List Byte) (iv t : BitVec w) (hw : 0 < w) :
    (scanFull t (plain.mapIdx fun i p => p ^^^ keystreamByte iv t i) iv).1 = plain := by
  rw [scanFull_eq_mapIdx _ iv t hw]
  apply List.ext_getElem?
  intro i
  simp [Function.comp_def]

/-- Settles O41: XORing with the keystream twice gives the plaintext back, and an attempt that accepts is the run to
completion. -/
theorem decryptionUndoesEncryption : Obligations.DecryptionUndoesEncryption := by
  intro w plain iv t hw
  have hplain := scanFull_encrypted plain iv t hw
  refine ⟨?roundTrip, fun hacc => ?accepted⟩
  case roundTrip => rw [decryptFull, hplain, List.take_left]
  case accepted =>
    rw [decrypt_of_accepted (by rwa [hplain]), hplain, List.length_mapIdx]
    rfl

/-- Settles O42: the loop's equations for its first byte; a keystream that is zero leaves the ciphertext. -/
theorem cornerCasesOfAnAttempt : Obligations.CornerCasesOfAnAttempt := by
  intro w iv t hw
  refine ⟨rfl, fun c cs hacc => ?firstRejected, fun c cs hzero => ?nullByte, fun ct hnull => ?noKeystream⟩
  case firstRejected =>
    rw [decrypt, scan_cons_of_rejected t c cs iv hacc]
    simp [sentinel, recoverByte_register]
  case nullByte =>
    have hacc : acceptable (recoverByte iv t c).2 = true := by
      rw [hzero]
      decide
    rw [decrypt, scan_cons_of_acceptable t c cs iv hacc]
    exact ⟨rfl, rfl⟩
  case noKeystream =>
    have hbytes := scanFull_of_no_feedback hw (no_feedback_of_zero hnull) ct
    refine ⟨?_, fun i hi => ?_⟩
    · rw [decrypt_acc_eq_all_scanFull, hbytes]
    · rw [decrypt_pt_eq_scanFull_of_lt_idx ct iv t hi, hbytes]

end Sys2Proof.Machine
end

section
/-! What a completing command leaves alone, one lemma per piece of state, what decides a refusal, and the statements about
who writes and who reads a piece of state (spec/10_state.md section 1). -/

namespace Sys2Proof.Machine

section

variable {w : Nat} {i : Instr} {b b' : Block w}

/-- No command writes the ciphertext (R8). -/
theorem Completes.ct_eq (h : Completes i b b') : b'.ct = b.ct := by
  cases h <;> rfl

/-- No command takes a word from those that wait; the step does (log 3). -/
theorem Completes.input_eq (h : Completes i b b') : b'.input = b.input := by
  cases h <;> rfl

/-- Only `LOAD`, `STEP` and `DECRYPT` write `R` (R16). -/
theorem Completes.r_eq (h : Completes i b b') (hi : ¬(i = .load ∨ i = .step ∨ i = .decrypt)) : b'.r = b.r := by
  cases h with
  | wrtaps | wrinit => rfl
  | load | step | decrypt => simp at hi

/-- Only `DECRYPT` writes `ACC` (R18). -/
theorem Completes.acc_eq (h : Completes i b b') (hi : i ≠ .decrypt) : b'.acc = b.acc := by
  cases h with
  | decrypt => exact absurd rfl hi
  | wrtaps | wrinit | load | step => rfl

/-- Only `WRTAPS`, `WRINIT` and `DECRYPT` write `VALID` (R19). -/
theorem Completes.valid_eq (h : Completes i b b') (hi : ¬((∃ v, i = .wrtaps v) ∨ (∃ v, i = .wrinit v) ∨ i = .decrypt)) :
    b'.valid = b.valid := by
  cases h with
  | wrtaps | wrinit | decrypt => simp at hi
  | load | step => rfl

/-- Only `DECRYPT` writes `IDX` (R21). -/
theorem Completes.idx_eq (h : Completes i b b') (hi : i ≠ .decrypt) : b'.idx = b.idx := by
  cases h with
  | decrypt => exact absurd rfl hi
  | wrtaps | wrinit | load | step => rfl

/-- Only `DECRYPT` writes `PT` (R23). -/
theorem Completes.pt_eq (h : Completes i b b') (hi : i ≠ .decrypt) : b'.pt = b.pt := by
  cases h with
  | decrypt => exact absurd rfl hi
  | wrtaps | wrinit | load | step => rfl

/-- No command stores above `PT[L]` (R32). -/
theorem Completes.read_above (h : Completes i b b') {a : Nat} (ha : b.len < a) :
    Memory.read b'.pt a = Memory.read b.pt a := by
  cases h with
  | decrypt hinit htaps => exact read_afterAttempt_above b _ _ ha
  | wrtaps | wrinit | load | step => rfl

/-- From a block with the same ciphertext, `TAPS`, `INIT` and `R` the command completes too, and what it writes comes out the
same (10_state.md section 1). -/
theorem Completes.transfer (h : Completes i b b') {c : Block w} (hct : c.ct = b.ct) (htaps : c.taps = b.taps)
    (hinit : c.init = b.init) (hr : c.r = b.r) :
    ∃ c', Completes i c c' ∧ c'.taps = b'.taps ∧ c'.init = b'.init ∧ c'.r = b'.r ∧
      (i = .step → c'.ks = b'.ks) ∧ (¬(i = .load ∨ i = .step) → c'.valid = b'.valid) ∧
      (i = .decrypt → c'.acc = b'.acc ∧ c'.idx = b'.idx ∧ ∀ a, a ≤ b.len → Memory.read c'.pt a = Memory.read b'.pt a) := by
  cases h with
  | wrtaps hv => exact ⟨_, .wrtaps hv, rfl, hinit, hr, nofun, fun _ => rfl, nofun⟩
  | wrinit hv => exact ⟨_, .wrinit hv, htaps, rfl, hr, nofun, fun _ => rfl, nofun⟩
  | load hbinit => exact ⟨_, .load (hinit.trans hbinit), htaps, hinit, rfl, nofun, by simp, nofun⟩
  | step hbr hbtaps =>
    exact ⟨_, .step (hr.trans hbr) (htaps.trans hbtaps), htaps, hinit, rfl, fun _ => rfl, by simp, nofun⟩
  | @decrypt _ iv t hbinit hbtaps =>
    have hlen : c.len = b.len := congrArg List.length hct
    refine ⟨c.afterAttempt iv t, .decrypt (hinit.trans hbinit) (htaps.trans hbtaps), htaps, hinit, ?_, nofun,
      fun _ => rfl, fun _ => ⟨?_, ?_, fun a ha => ?_⟩⟩
    · simp [Block.afterAttempt, hct]
    · simp [Block.afterAttempt, hct]
    · simp [Block.afterAttempt, hct]
    · rw [read_afterAttempt c iv t (hlen ▸ ha), read_afterAttempt b iv t ha, hct]

end

section

variable {W : Width} {b c : Block W.bits} {i : Instr}

/-- A command whose operand no word spells is refused for it (log 5). -/
theorem exec_of_not_wellFormed (hi : i.wellFormed W.bits = false) : exec i ⟨W, b⟩ = .refused .operandOutOfRange := by
  cases i with
  | wrtaps v =>
    rw [exec, execWrtaps, State.onBlock_eq_refused, withOperand_of_ge (Nat.le_of_not_lt (of_decide_eq_false hi))]
  | wrinit v =>
    rw [exec, execWrinit, State.onBlock_eq_refused, withOperand_of_ge (Nat.le_of_not_lt (of_decide_eq_false hi))]
  | load | step | decrypt => cases hi

/-- What a command can answer, in the order of its checks: the refusal of its operand, the refusal for the first register that
is missing, or a next state (R75). -/
theorem exec_outcome (i : Instr) (b : Block W.bits) :
    (i.wellFormed W.bits = false ∧ exec i ⟨W, b⟩ = .refused .operandOutOfRange) ∨
    (∃ reg, firstMissing b i = some reg ∧ exec i ⟨W, b⟩ = .refused (.unwrittenRegister reg)) ∨
    ∃ s', exec i ⟨W, b⟩ = .next s' := by
  cases hi : i.wellFormed W.bits with
  | false => exact .inl ⟨rfl, exec_of_not_wellFormed hi⟩
  | true =>
    cases hmiss : firstMissing b i with
    | some reg => exact .inr (.inl ⟨reg, rfl, exec_of_firstMissing hmiss⟩)
    | none => exact .inr (.inr (exec_next_of_firstMissing_eq_none hi hmiss))

/-- No command raises an exception (R72). -/
theorem exec_ne_fault (i : Instr) (s : State) (f : Fault) : exec i s ≠ .fault f := by
  obtain ⟨W, b⟩ := s
  rcases exec_outcome i b with ⟨-, h⟩ | ⟨_, -, h⟩ | ⟨_, h⟩ <;> simp [h]

/-- What a command misses is decided by `TAPS`, `INIT` and `R` (R75, R76). -/
theorem firstMissing_congr (htaps : c.taps = b.taps) (hinit : c.init = b.init) (hr : c.r = b.r) (i : Instr) :
    firstMissing c i = firstMissing b i := by
  have hwritten (reg : DataReg) : c.isWritten reg = b.isWritten reg := by
    cases reg <;> simp [Block.isWritten, htaps, hinit, hr]
  cases i with
  | wrtaps v | wrinit v => rfl
  | load | step | decrypt => simp only [firstMissing, hwritten]

/-- Where a command misses the same register, it is refused for the same reason (R75). -/
theorem exec_refused_congr (hmiss : firstMissing c i = firstMissing b i) {reason : Refusal}
    (h : exec i ⟨W, b⟩ = .refused reason) : exec i ⟨W, c⟩ = .refused reason := by
  rcases exec_outcome i b with ⟨hi, hb⟩ | ⟨reg, hreg, hb⟩ | ⟨s', hb⟩
  · rw [exec_of_not_wellFormed hi, ← hb, h]
  · rw [exec_of_firstMissing (hmiss.trans hreg), ← hb, h]
  · rw [hb] at h
    cases h

end

/-- Settles O15: for each command, the frame lemmas of the pieces of state it does not write. -/
theorem frameOfCommandsThatStoreNothing : Obligations.FrameOfCommandsThatStoreNothing := by
  intro W b s'
  refine ⟨fun v h => ?wrtaps, fun v h => ?wrinit, fun h => ?load, fun h => ?step⟩
  all_goals
    obtain ⟨b', rfl, hc⟩ := exec_eq_next.1 h
    refine ⟨b', rfl, hc.ct_eq, ?_⟩
  case wrtaps =>
    exact ⟨hc.init_eq nofun, hc.r_eq (by simp), hc.ks_eq nofun, hc.acc_eq nofun, hc.idx_eq nofun, hc.input_eq,
      fun a => by rw [hc.pt_eq nofun]⟩
  case wrinit =>
    exact ⟨hc.taps_eq nofun, hc.r_eq (by simp), hc.ks_eq nofun, hc.acc_eq nofun, hc.idx_eq nofun, hc.input_eq,
      fun a => by rw [hc.pt_eq nofun]⟩
  case load =>
    exact ⟨hc.taps_eq nofun, hc.init_eq nofun, hc.ks_eq nofun, hc.acc_eq nofun, hc.valid_eq (by simp), hc.idx_eq nofun,
      hc.input_eq, fun a => by rw [hc.pt_eq nofun]⟩
  case step =>
    exact ⟨hc.taps_eq nofun, hc.init_eq nofun, hc.acc_eq nofun, hc.valid_eq (by simp), hc.idx_eq nofun, hc.input_eq,
      fun a => by rw [hc.pt_eq nofun]⟩

/-- Settles O16: the frame lemmas of the pieces of state `DECRYPT` does not write; its stores stay inside `PT[0 .. L]`. -/
theorem frameOfDecrypt : Obligations.FrameOfDecrypt := by
  intro W b s' h
  obtain ⟨b', rfl, hc⟩ := exec_eq_next.1 h
  exact ⟨b', rfl, hc.ct_eq, hc.taps_eq nofun, hc.init_eq nofun, hc.ks_eq nofun, hc.input_eq, fun _ => hc.read_above⟩

/-- Settles O17: a command that the table does not name for a piece of state leaves it as it was. -/
theorem onlyTheNamedCommandsWrite : Obligations.OnlyTheNamedCommandsWrite := by
  intro i W b b' h
  have hc := exec_next_iff.1 h
  refine ⟨fun hne => ?taps, fun hne => ?init, fun hne => ?r, fun hne => ?ks, fun hne => ?acc, fun hne => ?valid,
    fun hne => ?idx, fun ⟨a, hne⟩ => ?pt, hc.ct_eq, hc.input_eq⟩
  case taps => exact by_contra fun hi => hne (hc.taps_eq (not_exists.1 hi))
  case init => exact by_contra fun hi => hne (hc.init_eq (not_exists.1 hi))
  case r => exact by_contra fun hi => hne (hc.r_eq hi)
  case ks => exact by_contra fun hi => hne (hc.ks_eq hi)
  case acc => exact by_contra fun hi => hne (hc.acc_eq hi)
  case valid => exact by_contra fun hi => hne (hc.valid_eq hi)
  case idx => exact by_contra fun hi => hne (hc.idx_eq hi)
  case pt => exact by_contra fun hi => hne (congrArg (Memory.read · a) (hc.pt_eq hi))

/-- Settles O18: what a command needs and writes is a function of the ciphertext, `TAPS`, `INIT` and `R`; what it does not
write it leaves, in either state. -/
theorem nothingReadsTheResults : Obligations.NothingReadsTheResults := by
  intro i W b c hct htaps hinit hr
  refine ⟨fun b' h => ?completes, fun reason => exec_refused_congr (firstMissing_congr htaps hinit hr i)⟩
  case completes =>
    have hb := exec_next_iff.1 h
    obtain ⟨c', hc, htaps', hinit', hr', hks, hvalid, hresult⟩ := hb.transfer hct htaps hinit hr
    have hlen : c.len = b.len := congrArg List.length hct
    refine ⟨c', exec_next_iff.2 hc, htaps', hinit', hr', ⟨hb.ct_eq, hc.ct_eq, hb.input_eq, hc.input_eq⟩, ?ks, ?valid,
      ?result⟩
    case ks =>
      split
      case isTrue hi => exact hks hi
      case isFalse hi => exact ⟨hb.ks_eq hi, hc.ks_eq hi⟩
    case valid =>
      split
      case isTrue hi =>
        have hkeeps : ¬((∃ v, i = .wrtaps v) ∨ (∃ v, i = .wrinit v) ∨ i = .decrypt) := by
          rcases hi with rfl | rfl <;> simp
        exact ⟨hb.valid_eq hkeeps, hc.valid_eq hkeeps⟩
      case isFalse hi => exact hvalid hi
    case result =>
      split
      case isTrue hi =>
        obtain ⟨hacc, hidx, hread⟩ := hresult hi
        exact ⟨hacc, hidx, hread, fun a ha => ⟨hb.read_above ha, hc.read_above (hlen ▸ ha)⟩⟩
      case isFalse hi =>
        exact ⟨⟨hb.acc_eq hi, hc.acc_eq hi⟩, ⟨hb.idx_eq hi, hc.idx_eq hi⟩,
          fun a => ⟨congrArg (Memory.read · a) (hb.pt_eq hi), congrArg (Memory.read · a) (hc.pt_eq hi)⟩⟩

end Sys2Proof.Machine
end

section
/-! What a step can do (`step_cases`), commands on a block whose waiting words are others, and the statements about steps, runs
and the invariant (spec/10_state.md sections 2, 5 to 7; spec/20_memory.md R38; spec/60_exceptions.md R72;
spec/70_reset_and_hazards.md sections 1 and 2). -/

namespace Sys2Proof.Machine

section

variable {w : Nat} {i : Instr} {b b' : Block w}

/-- No command looks at the words that wait (log 3). -/
theorem Completes.setInput (h : Completes i b b') (xs : List (CmdWord w)) :
    Completes i (b.setInput xs) (b'.setInput xs) := by
  cases h with
  | wrtaps hv => exact .wrtaps hv
  | wrinit hv => exact .wrinit hv
  | load hinit => exact .load hinit
  | step hr htaps => exact .step hr htaps
  | decrypt hinit htaps => exact .decrypt hinit htaps

/-- The buffer of an attempt has a byte at each index of `PT` (R63). -/
theorem exists_decrypt_pt (ct : List Byte) (iv t : BitVec w) {a : Nat} (ha : a ≤ ct.length) :
    ∃ p, (decrypt ct iv t).pt[a]? = some p := by
  have hlt : a < (decrypt ct iv t).pt.length := by
    rw [decrypt_pt_length]
    exact Nat.lt_succ_of_le ha
  exact ⟨_, List.getElem?_eq_getElem hlt⟩

/-- An attempt leaves every written byte of `PT` written (R13). -/
theorem read_afterAttempt_ne_none (b : Block w) (iv t : BitVec w) {a : Nat} (ha : Memory.read b.pt a ≠ none) :
    Memory.read (b.afterAttempt iv t).pt a ≠ none := by
  rcases Nat.lt_or_ge b.len a with habove | hin
  · rwa [read_afterAttempt_above b iv t habove]
  · obtain ⟨p, hp⟩ := exists_decrypt_pt b.ct iv t hin
    rw [read_afterAttempt b iv t hin, hp]
    exact Option.some_ne_none p

/-- A command leaves written what was written: it leaves a piece of state as it was or gives it a value (R13). -/
theorem Completes.keeps_written (h : Completes i b b') :
    (b.taps ≠ none → b'.taps ≠ none) ∧ (b.init ≠ none → b'.init ≠ none) ∧ (b.r ≠ none → b'.r ≠ none) ∧
    (b.ks ≠ none → b'.ks ≠ none) ∧ ∀ a, Memory.read b.pt a ≠ none → Memory.read b'.pt a ≠ none := by
  cases h with
  | wrtaps => exact ⟨fun _ => Option.some_ne_none _, id, id, id, fun _ => id⟩
  | wrinit => exact ⟨id, fun _ => Option.some_ne_none _, id, id, fun _ => id⟩
  | load => exact ⟨id, id, fun _ => Option.some_ne_none _, id, fun _ => id⟩
  | step => exact ⟨id, id, fun _ => Option.some_ne_none _, fun _ => Option.some_ne_none _, fun _ => id⟩
  | decrypt => exact ⟨id, id, fun _ => Option.some_ne_none _, id, fun _ => read_afterAttempt_ne_none b _ _⟩

/-- The plaintext space stays sound: an attempt writes inside `0 .. L`, in order (R32, log 6). -/
theorem Completes.ptInSpace (h : Completes i b b') (hb : b.ptInSpace) : b'.ptInSpace := by
  cases h with
  | wrtaps | wrinit | load | step => exact hb
  | @decrypt _ iv t =>
    obtain ⟨hwf, hle⟩ := hb
    refine ⟨Memory.writeFrom_wf _ 0 hwf, fun c hc => ?_⟩
    rcases Memory.mem_writeFrom hc with hold | ⟨-, hnew⟩
    · exact hle c hold
    · rw [decrypt_pt_length, Nat.zero_add] at hnew
      exact Nat.le_of_lt_succ hnew

/-- `IDX` stays in range: an attempt computes at most `L` bytes (R21). -/
theorem Completes.idxInRange (h : Completes i b b') (hb : b.idxInRange) : b'.idxInRange := by
  cases h with
  | wrtaps | wrinit | load | step => exact hb
  | @decrypt _ iv t => exact decrypt_idx_le b.ct iv t

/-- A valid result stays that of the current registers: a write to one of them clears `VALID`, an attempt makes the result anew
(R19, R20). -/
theorem Completes.resultIsCurrent (h : Completes i b b') (hb : b.resultIsCurrent) : b'.resultIsCurrent := by
  cases h with
  | wrtaps | wrinit => exact nofun
  | load | step => exact hb
  | @decrypt _ iv t hinit htaps =>
    exact fun _ => ⟨t, iv, htaps, hinit, fun a ha => read_afterAttempt b iv t ha, rfl, rfl⟩

end

section

variable {W : Width} {b : Block W.bits}

/-- A step that completes idles, or takes the next word and completes its command (R38, log 3). -/
theorem step_cases {s' : State} (h : step ⟨W, b⟩ = .next s') :
    (b.input = [] ∧ s' = ⟨W, b⟩) ∨
    ∃ x rest i b', b.input = x :: rest ∧ decode W.bits x = .ok i ∧ Completes i (b.setInput rest) b' ∧ s' = ⟨W, b'⟩ := by
  cases hin : b.input with
  | nil =>
    rw [step_of_no_word hin] at h
    cases h
    exact .inl ⟨rfl, rfl⟩
  | cons x rest =>
    rw [step_eq_performWord hin] at h
    cases hx : decode W.bits x with
    | error e =>
      rw [performWord_of_error hx] at h
      cases h
    | ok i =>
      rw [performWord_of_ok hx] at h
      obtain ⟨b', rfl, hc⟩ := exec_eq_next.1 h
      exact .inr ⟨x, rest, i, b', rfl, hx, hc, rfl⟩

/-- A reset block meets the invariant, whatever words wait (R87, log 3). -/
theorem inv_of_reset (ct : List Byte) (xs : List (CmdWord W.bits)) :
    State.Inv ⟨W, (resetBlock W.bits ct).setInput xs⟩ :=
  ⟨⟨rfl, nofun⟩, Nat.zero_le _, nofun⟩

end

/-- Settles O8: the word is taken, and the decoder gives the command to perform. -/
theorem stepRunsTheDecodedCommand : Obligations.StepRunsTheDecodedCommand := by
  refine ⟨fun W b x rest i hin hx => ?word, fun W b hin => step_of_no_word hin⟩
  case word =>
    rw [step_eq_performWord hin, performWord_of_ok hx]
    rfl

/-- Settles O9, by induction on the commands: each step takes one word, and no command depends on those that wait. -/
theorem wordsArePerformedInIssueOrder : Obligations.WordsArePerformedInIssueOrder := by
  intro W b cmds rest hwf hin
  induction cmds generalizing b with
  | nil =>
    subst hin
    rfl
  | cons i cmds ih =>
    obtain ⟨hi, hwf⟩ := List.forall_mem_cons.1 hwf
    rw [List.map_cons, List.cons_append] at hin
    rw [List.length_cons, runSteps_succ, step_eq_performWord hin, performWord_of_ok (decodeAfterEncode W.bits i hi),
      execAll_cons]
    generalize cmds.map (encode W.bits) ++ rest = more at ih ⊢
    change _ = andThen (exec i ⟨W, b.setInput rest⟩) (execAll cmds)
    cases hexec : exec i ⟨W, b.setInput rest⟩ with
    | next s' =>
      obtain ⟨b', rfl, hc⟩ := exec_eq_next.1 hexec
      have hmore : exec i ⟨W, b.setInput more⟩ = .next ⟨W, b'.setInput more⟩ := exec_next_iff.2 (hc.setInput more)
      have hback : b' = b'.setInput rest := congrArg b'.setInput hc.input_eq
      rw [hmore, andThen_next, andThen_next, ih (b'.setInput more) hwf rfl, hback]
      rfl
    | fault f => exact absurd hexec (exec_ne_fault _ _ f)
    | refused reason =>
      rw [exec_refused_congr (by simp) hexec, andThen_refused, andThen_refused]

/-- Settles O45: a step idles, is refused or completes; once the registers are written no command misses one. -/
theorem noStepRaisesAnException : Obligations.NoStepRaisesAnException := by
  refine ⟨fun ⟨W, b⟩ f h => ?noFault, fun W b i t iv r hi htaps hinit hr => ?completes⟩
  case noFault =>
    cases hin : b.input with
    | nil =>
      rw [step_of_no_word hin] at h
      cases h
    | cons x rest =>
      rcases step_outcome hin with ⟨-, hs⟩ | ⟨_, _, -, -, hs⟩ | ⟨_, -, -, _, hs⟩ <;> simp [hs] at h
  case completes => exact exec_next_of_firstMissing_eq_none hi (firstMissing_of_written htaps hinit hr i)

/-- Settles O52: an idle step changes nothing, and a command leaves written what was written. -/
theorem writtenStaysWritten : Obligations.WrittenStaysWritten := by
  intro W b b' h
  rcases step_cases h with ⟨-, heq⟩ | ⟨x, rest, i, b'', -, -, hc, heq⟩
  · cases heq
    exact ⟨id, id, id, id, fun _ => id⟩
  · cases heq
    exact hc.keeps_written

/-- Settles O53: no command writes the ciphertext or stores above `PT[L]`. -/
theorem widthAndCiphertextNeverChange : Obligations.WidthAndCiphertextNeverChange := by
  intro ⟨W, b⟩ s' h
  rcases step_cases h with ⟨-, rfl⟩ | ⟨x, rest, i, b', -, -, hc, rfl⟩
  · exact ⟨rfl, rfl, fun _ _ => rfl⟩
  · exact ⟨rfl, hc.ct_eq, fun _ => hc.read_above⟩

/-- Settles O54: the two writes touch different registers, and after both no later command misses one. -/
theorem startUpInEitherOrder : Obligations.StartUpInEitherOrder := by
  intro W b u v hu hv
  refine ⟨?anyOrder, ?decrypt, ?loadStep⟩
  case anyOrder =>
    rw [execAll_pair_of_completes (.wrinit hu) (.wrtaps hv), execAll_pair_of_completes (.wrtaps hv) (.wrinit hu)]
    rfl
  case decrypt =>
    rw [execAll_cons_of_completes (.wrinit hu)]
    exact ⟨_, execAll_pair_of_completes (.wrtaps hv) (.decrypt rfl rfl)⟩
  case loadStep =>
    rw [execAll_cons_of_completes (.wrinit hu), execAll_cons_of_completes (.wrtaps hv)]
    exact ⟨_, execAll_pair_of_completes (.load rfl) (.step rfl rfl)⟩

/-- Settles O49: each of the three clauses is kept by a command, and an idle step changes nothing. -/
theorem everyStepKeepsTheInvariant : Obligations.EveryStepKeepsTheInvariant := by
  intro ⟨W, b⟩ s' ⟨hpt, hidx, hresult⟩ h
  rcases step_cases h with ⟨-, rfl⟩ | ⟨x, rest, i, b', -, -, hc, rfl⟩
  · exact ⟨hpt, hidx, hresult⟩
  · exact ⟨hc.ptInSpace hpt, hc.idxInRange hidx, hc.resultIsCurrent hresult⟩

/-- Settles O50: after reset `PT` is empty, `IDX` is 0 and `VALID` is 0. -/
theorem resetMeetsTheInvariant : Obligations.ResetMeetsTheInvariant :=
  ⟨fun _ ct => inv_of_reset ct [], inv_of_reset [] [], fun s => inv_of_reset s.block.ct s.block.input⟩

/-- A run keeps the invariant, since each of its steps does. -/
theorem runSteps_keeps_inv {n : Nat} {s s' : State} (hs : s.Inv) (h : runSteps n s = .next s') : s'.Inv := by
  induction n generalizing s with
  | zero =>
    cases h
    exact hs
  | succ n ih =>
    rw [runSteps_succ, andThen_eq_next] at h
    obtain ⟨t, hstep, hrest⟩ := h
    exact ih (everyStepKeepsTheInvariant s t hs hstep) hrest

/-- Settles O51: the invariant holds along a run from reset, and every byte of an attempt's buffer is there. -/
theorem validResultsBelongToTheCurrentTapsInEveryRun : Obligations.ValidResultsBelongToTheCurrentTapsInEveryRun := by
  intro W ct xs s hrun hvalid
  obtain ⟨-, -, hresult⟩ := runSteps_keeps_inv (inv_of_reset ct xs) hrun
  obtain ⟨t, iv, htaps, hinit, hread, hacc, hidx⟩ := hresult hvalid
  refine ⟨t, iv, htaps, hinit, fun a ha => ?_, hacc, hidx⟩
  obtain ⟨p, hp⟩ := exists_decrypt_pt s.block.ct iv t ha
  exact ⟨p, hp, (hread a ha).trans hp⟩

end Sys2Proof.Machine
end

section
/-! The first byte that an attempt rejects, what the host reads and reports after an attempt, and the statements about the
results of `DECRYPT` (spec/10_state.md R18, R21, R27, R28; spec/42_decrypt.md R65; spec/70_reset_and_hazards.md R92). -/

namespace Sys2Proof.Machine

section

variable {w : Nat}

/-- A rejected attempt computed last a byte that fails the filter (R63). -/
theorem decrypt_last_rejected {ct : List Byte} {iv t : BitVec w} (hacc : (decrypt ct iv t).acc = false) :
    ∃ k p, (decrypt ct iv t).idx = k + 1 ∧ (decrypt ct iv t).pt[k]? = some p ∧ acceptable p ≠ true := by
  obtain ⟨-, -, -, -, -, hrejected, -⟩ := attemptStopsAtTheFirstRejectedByte w ct iv t
  obtain ⟨hpos, p, hp, hfails⟩ := hrejected hacc
  exact ⟨_, p, (Nat.sub_add_cancel hpos).symm, hp, Bool.eq_false_iff.1 hfails⟩

/-- An attempt accepts exactly when every byte of its buffer below the sentinel passes the filter (R18). -/
theorem decrypt_acc_iff (ct : List Byte) (iv t : BitVec w) :
    (decrypt ct iv t).acc = true ↔
      ∀ i, i < ct.length → ∃ p, (decrypt ct iv t).pt[i]? = some p ∧ acceptable p = true := by
  constructor
  · intro hacc i hi
    obtain ⟨-, -, -, -, haccepted, -⟩ := attemptStopsAtTheFirstRejectedByte w ct iv t
    obtain ⟨p, hp⟩ := exists_decrypt_pt ct iv t hi.le
    exact ⟨p, hp, (haccepted hacc).2 i p hi hp⟩
  · intro hall
    refine Bool.of_not_eq_false fun hacc => ?_
    obtain ⟨k, p, hidx, hp, hfails⟩ := decrypt_last_rejected hacc
    obtain ⟨q, hq, hpasses⟩ := hall k (hidx.symm.le.trans (decrypt_idx_le ct iv t))
    rw [hp] at hq
    cases hq
    exact hfails hpasses

/-- The first byte of the buffer that fails the filter is the one at which the attempt stopped (R21). -/
theorem decrypt_idx_of_first_rejected {ct : List Byte} {iv t : BitVec w} {k : Nat} {p : Byte} (hk : k < ct.length)
    (hbefore : ∀ i q, i < k → (decrypt ct iv t).pt[i]? = some q → acceptable q = true)
    (hp : (decrypt ct iv t).pt[k]? = some p) (hfails : acceptable p ≠ true) :
    (decrypt ct iv t).acc = false ∧ (decrypt ct iv t).idx = k + 1 := by
  obtain ⟨-, -, -, hbeforeLast, -⟩ := attemptStopsAtTheFirstRejectedByte w ct iv t
  have hacc : (decrypt ct iv t).acc = false := by
    refine Bool.of_not_eq_true fun hacc => ?_
    obtain ⟨q, hq, hpasses⟩ := (decrypt_acc_iff ct iv t).1 hacc k hk
    rw [hp] at hq
    cases hq
    exact hfails hpasses
  obtain ⟨j, q, hidx, hq, hqfails⟩ := decrypt_last_rejected hacc
  have hnotBefore : ¬j < k := fun hj => hqfails (hbefore j q hj hq)
  have hnotAfter : ¬k < j := fun hj => hfails (hbeforeLast k p (hidx ▸ Nat.succ_lt_succ hj) hp)
  exact ⟨hacc, by omega⟩

/-- The last bit of a run is the feedback of the register before its last step (R60). -/
theorem lfsrRun_getLast? (r t : BitVec w) (n : Nat) :
    (lfsrRun r t (n + 1)).2.getLast? = some (feedback (lfsrRun r t n).1 t) := by
  rw [lfsrRun_succ, List.getLast?_concat, lfsrStep_bit]

/-- Looking a list up at its first indices gives its first elements. -/
theorem filterMap_getElem?_range {α : Type} (l : List α) (n : Nat) : (List.range n).filterMap (l[·]?) = l.take n := by
  induction n with
  | zero => rfl
  | succ n ih =>
    rw [List.range_succ, List.filterMap_append, ih, List.take_add_one]
    cases hn : l[n]? <;> simp [hn]

/-- After an attempt the host reads the first `L` bytes of its buffer (R28). -/
theorem ptBytes_afterAttempt (b : Block w) (iv t : BitVec w) :
    ptBytes (b.afterAttempt iv t) = (decrypt b.ct iv t).pt.take b.len := by
  rw [← filterMap_getElem?_range]
  exact List.filterMap_congr fun i hi => read_afterAttempt b iv t (List.mem_range.1 hi).le

/-- What the host reports after an attempt (R28). -/
theorem report_afterAttempt {b : Block w} {iv t : BitVec w} (htaps : b.taps = some t) :
    report (b.afterAttempt iv t) = some ⟨t.toNat, (decrypt b.ct iv t).pt.take b.len⟩ := by
  have htaps' : (b.afterAttempt iv t).taps = some t := htaps
  rw [report, htaps', Option.map_some, ptBytes_afterAttempt]

end

/-- Settles O23: `PT` below `L` reads as the buffer of the attempt, whose first failing byte decides `ACC` and `IDX`. -/
theorem accAndIdxDescribeTheBuffer : Obligations.AccAndIdxDescribeTheBuffer := by
  intro W b b' h
  cases exec_next_iff.1 h with
  | @decrypt _ iv t hinit htaps =>
    have hread {i : Nat} (hi : i < b.len) := read_afterAttempt b iv t hi.le
    refine ⟨(decrypt_acc_iff b.ct iv t).trans (forall₂_congr fun i hi => by rw [hread hi]), fun hacc => ?idx,
      fun k p hk hbefore hp hfails => ?firstRejected⟩
    case idx => exact (scan_accepted t b.ct iv hacc).1
    case firstRejected =>
      rw [hread hk] at hp
      refine decrypt_idx_of_first_rejected hk (fun i q hi hq => hbefore i q hi ?_) hp (Bool.eq_false_iff.1 hfails)
      rw [hread (hi.trans hk), hq]

/-- Settles O24: each location by the definition of a read; an index of `PT` is compared with `L` first. -/
theorem hostReadsWhatIsHeld : Obligations.HostReadsWhatIsHeld := by
  intro w draw b
  refine ⟨fun v hv => hostRead_taps_of_some hv draw, fun v hv => hostRead_init_of_some hv draw,
    fun f hf => hostRead_ks_of_some hf draw, rfl, rfl, rfl, fun i p hi hp => ?inside, fun i hi => ?above⟩
  case inside => simp [hostRead, hi, hp]
  case above => simp [hostRead, Nat.not_le.2 hi]

/-- Settles O25: the host reads the attempt's buffer, which has `L` bytes before its sentinel. -/
theorem reportHoldsAllPlaintextBytes : Obligations.ReportHoldsAllPlaintextBytes := by
  intro W b b' iv t hinit htaps h
  obtain rfl : b.afterAttempt iv t = b' := by
    have hnext := exec_next_iff.2 (Completes.decrypt hinit htaps)
    rw [h] at hnext
    simpa using hnext.symm
  refine ⟨report_afterAttempt htaps, ?_⟩
  rw [ptBytes_afterAttempt, List.length_take, decrypt_pt_length, Block.len, Nat.min_eq_left (Nat.le_succ _)]

/-- Settles O37: the attempt leaves the register `8 * IDX` steps from `INIT`, and each `STEP` goes one step on. -/
theorem generatorContinuesFromTheAbortPoint : Obligations.GeneratorContinuesFromTheAbortPoint := by
  intro W b iv t n hinit htaps
  have hreg : (b.afterAttempt iv t).r = some (lfsrRun iv t (8 * (decrypt b.ct iv t).idx)).1 :=
    congrArg some (scan_register t b.ct iv)
  refine ⟨_, (execAll_cons_of_completes (.decrypt hinit htaps) _).trans (execAll_replicate_step hreg htaps n), rfl, ?r, ?ks⟩
  case r => exact congrArg some (lfsrRun_register_add iv t _ n).symm
  case ks =>
    cases n with
    | zero => rfl
    | succ n =>
      refine (lfsrRun_getLast? _ t n).trans ?_
      rw [← lfsrRun_register_add]
      exact (lfsrRun_getLast? iv t _).symm

section

variable {W : Width} {b : Block W.bits} {iv : BitVec W.bits}

/-- The block after `TRY v` with initial value `iv` (R48, R64). -/
def Block.afterTry {w : Nat} (b : Block w) (iv : BitVec w) (v : Nat) : Block w :=
  ((b.setTaps (BitVec.ofNat w v)).setValid false).afterAttempt iv (BitVec.ofNat w v)

/-- `TRY v` completes once `INIT` is written (R48). -/
theorem execAll_tryCommands (hinit : b.init = some iv) {v : Nat} (hv : v < 2 ^ W.bits) :
    execAll (tryCommands v) ⟨W, b⟩ = .next ⟨W, b.afterTry iv v⟩ :=
  execAll_pair_of_completes (.wrtaps hv) (.decrypt hinit rfl)

/-- After `TRY` the plaintext space reads as the buffer of the attempt (R64). -/
theorem read_afterTry {w : Nat} (b : Block w) (iv : BitVec w) (v : Nat) {a : Nat} (ha : a ≤ b.len) :
    Memory.read (b.afterTry iv v).pt a = (decrypt b.ct iv (BitVec.ofNat w v)).pt[a]? :=
  read_afterAttempt _ iv _ ha

/-- After `TRY v` the host reports `v` and the plaintext (R28). -/
theorem report_afterTry (b : Block W.bits) (iv : BitVec W.bits) {v : Nat} (hv : v < 2 ^ W.bits) :
    report (b.afterTry iv v) = some ⟨v, (decrypt b.ct iv (BitVec.ofNat W.bits v)).pt.take b.len⟩ := by
  rw [Block.afterTry, report_afterAttempt rfl, BitVec.toNat_ofNat, Nat.mod_eq_of_lt hv]
  rfl

end

/-- Settles O44: all that `TRY` writes is that of one attempt, and its buffer is all that `PT[0 .. L]` then holds. -/
theorem attemptForgetsEarlierAttempts : Obligations.AttemptForgetsEarlierAttempts := by
  intro W b c iv v hb hc hct hv
  have hlen : c.len = b.len := congrArg List.length hct
  refine ⟨b.afterTry iv v, c.afterTry iv v, execAll_tryCommands hb hv, execAll_tryCommands hc hv, rfl, ?r, ?acc, rfl, ?idx,
    fun a ha => ?pt⟩
  case r | acc | idx => simp [Block.afterTry, Block.afterAttempt, hct]
  case pt => rw [read_afterTry c iv v (hlen ▸ ha), read_afterTry b iv v ha, hct]

end Sys2Proof.Machine
end

section
/-! What the assembler accepts, and the statement about the range of its operands (spec/30_encoding.md R47, R48). -/

namespace Sys2Proof.Machine

section

variable {w : Nat} {a : List Char}

/-- The assembler takes an operand that the width can hold (R47). -/
theorem asmOperand_lt {v : Nat} (h : asmOperand w a = .ok v) : v < 2 ^ w := by
  unfold asmOperand at h
  split at h
  case h_1 => cases h
  case h_2 u _ =>
    split at h
    case isTrue hu =>
      cases h
      exact hu
    case isFalse => cases h

/-- An operand of `2^W` or more is an error (R47). -/
theorem asmOperand_of_ge {v : Nat} (hv : literalValue a = some v) (hge : 2 ^ w ≤ v) :
    asmOperand w a = .error .literalOutOfRange := by
  simp [asmOperand, hv, Nat.not_lt.2 hge]

/-- What a mnemonic with an operand assembles to holds of its commands when it holds of those of every operand in range. -/
theorem forall_mem_of_map_asmOperand {P : Instr → Prop} {f : Nat → List Instr} {cmds : List Instr}
    (h : (asmOperand w a).map f = .ok cmds) (hf : ∀ v, v < 2 ^ w → ∀ i ∈ f v, P i) : ∀ i ∈ cmds, P i := by
  cases hv : asmOperand w a with
  | error e =>
    rw [hv] at h
    cases h
  | ok v =>
    rw [hv] at h
    cases h
    exact hf v (asmOperand_lt hv)

/-- A mnemonic without an operand assembles to a command that every width has (R47). -/
theorem asmBare_wellFormed {m : List Char} {cmds : List Instr} (h : asmBare m = .ok cmds) :
    ∀ i ∈ cmds, i.wellFormed w = true := by
  unfold asmBare at h
  split_ifs at h <;> cases h <;> simp [Instr.wellFormed]

/-- A mnemonic with an operand assembles to commands that the width has (R47, R48). -/
theorem asmWithOperand_wellFormed {m : List Char} {cmds : List Instr} (h : asmWithOperand w m a = .ok cmds) :
    ∀ i ∈ cmds, i.wellFormed w = true := by
  unfold asmWithOperand at h
  split_ifs at h
  case pos | pos | pos | pos =>
    exact forall_mem_of_map_asmOperand h fun v hv => by simp [Instr.wellFormed, tryCommands, seedCommands, hv]

end

/-- Settles O56: every operand goes through the assembler's check of its range. -/
theorem assemblerKeepsOperandsInRange : Obligations.AssemblerKeepsOperandsInRange := by
  refine ⟨fun w line cmds h => ?wellFormed, fun w m a v hm hv hge => ?outOfRange⟩
  case wellFormed =>
    unfold assembleLine at h
    split at h
    case h_1 =>
      cases h
      exact nofun
    case h_2 => exact asmBare_wellFormed h
    case h_3 => exact asmWithOperand_wellFormed h
    case h_4 => cases h
  case outOfRange =>
    have herror := asmOperand_of_ge hv hge
    rcases hm with rfl | rfl | rfl | rfl <;> simp [asmWithOperand, herror, Except.map]

end Sys2Proof.Machine
end

section
/-! A set of instances as the product of its instances: what a change of one leaves, the order of two changes, and where an
interleaving leads each (`execInterleaved_eq`); with the statements about instances (spec/10_state.md R29, R30;
spec/60_exceptions.md R75, R82; spec/70_reset_and_hazards.md R88). -/

namespace Sys2Proof.Machine

section

variable {n : Nat} {f : InstanceRun → InstanceRun} {sys sys' : Instances} {x : InstanceRun}

/-- A change answers where there is something to change (R29). -/
theorem changeAt_of_getElem? (hx : sys[n]? = some x) (f : InstanceRun → InstanceRun) :
    changeAt n f sys = some (sys.set n (f x)) :=
  changeAt_eq_some.2 ⟨x, hx, rfl⟩

/-- What is changed stands in its old place. -/
theorem changeAt_same (h : changeAt n f sys = some sys') (hx : sys[n]? = some x) : sys'[n]? = some (f x) := by
  rw [changeAt_of_getElem? hx] at h
  cases h
  exact List.getElem?_set_self (List.getElem?_eq_some_iff.1 hx).1

/-- Changes of two instances may come in either order (R30). -/
theorem changeAt_comm {m : Nat} (hne : m ≠ n) (f g : InstanceRun → InstanceRun) (sys : Instances) :
    (changeAt n f sys).bind (changeAt m g) = (changeAt m g sys).bind (changeAt n f) := by
  cases hn : sys[n]? <;> cases hm : sys[m]? <;>
    simp [changeAt, hn, hm, List.getElem?_set_ne hne, List.getElem?_set_ne hne.symm, List.set_comm _ _ hne]

end

/-- A well-formed run answers the command from its state (R75, R90). -/
theorem InstanceRun.perform_of_wellFormed {x : InstanceRun} (act : State → Answer State) (h : x.mark = .wellFormed) :
    x.perform act = x.afterAnswer (act x.state) := by
  simp [InstanceRun.perform, h]

/-- The commands of a list performed in order on one of the instances (R30, R38). -/
def InstanceRun.performAll (cmds : List Instr) (x : InstanceRun) : InstanceRun :=
  cmds.foldl (fun y i => y.perform (exec i)) x

@[simp] theorem InstanceRun.performAll_nil (x : InstanceRun) : x.performAll [] = x := rfl

@[simp] theorem InstanceRun.performAll_cons (i : Instr) (cmds : List Instr) (x : InstanceRun) :
    x.performAll (i :: cmds) = (x.perform (exec i)).performAll cmds := rfl

/-- A marked run stays as it is, whatever commands follow (R75). -/
theorem InstanceRun.performAll_marked {x : InstanceRun} (h : x.mark ≠ .wellFormed) (cmds : List Instr) :
    x.performAll cmds = x := by
  induction cmds with
  | nil => rfl
  | cons i cmds ih => rw [InstanceRun.performAll_cons, InstanceRun.perform_marked _ h, ih]

/-- A well-formed run whose commands complete is where they lead (R90). -/
theorem InstanceRun.performAll_of_next {cmds : List Instr} {s s' : State} (h : execAll cmds s = .next s') :
    InstanceRun.performAll cmds ⟨s, .wellFormed⟩ = ⟨s', .wellFormed⟩ := by
  induction cmds generalizing s with
  | nil =>
    cases h
    rfl
  | cons i cmds ih =>
    rw [execAll_cons, andThen_eq_next] at h
    obtain ⟨s₁, hi, hrest⟩ := h
    rw [InstanceRun.performAll_cons, InstanceRun.perform_wellFormed, hi, InstanceRun.afterAnswer_next, ih hrest]

/-- A well-formed run with a command that is refused is marked with the reason (R75). -/
theorem InstanceRun.performAll_of_refused {cmds : List Instr} {s : State} {r : Refusal}
    (h : execAll cmds s = .refused r) : (InstanceRun.performAll cmds ⟨s, .wellFormed⟩).mark = .refused r := by
  induction cmds generalizing s with
  | nil => cases h
  | cons i cmds ih =>
    rw [execAll_cons, andThen_eq_refused] at h
    rw [InstanceRun.performAll_cons, InstanceRun.perform_wellFormed]
    rcases h with hi | ⟨s₁, hi, hrest⟩
    · rw [hi, InstanceRun.afterAnswer_refused, InstanceRun.performAll_marked (by simp)]
    · rw [hi, InstanceRun.afterAnswer_next, ih hrest]

theorem commandsOf_cons_same (n : Nat) (i : Instr) (cmds : List (Nat × Instr)) :
    commandsOf n ((n, i) :: cmds) = i :: commandsOf n cmds := by
  simp [commandsOf]

theorem commandsOf_cons_other {n k : Nat} (hne : k ≠ n) (i : Instr) (cmds : List (Nat × Instr)) :
    commandsOf k ((n, i) :: cmds) = commandsOf k cmds := by
  simp [commandsOf, hne.symm]

/-- An interleaving leads each of the instances where its own commands lead it (R30). -/
theorem execInterleaved_eq {cmds : List (Nat × Instr)} {sys : Instances} (hcmds : ∀ c ∈ cmds, c.1 < sys.length) :
    ∃ sys', execInterleaved cmds sys = some sys' ∧ sys'.length = sys.length ∧
      ∀ (k : Nat) (x : InstanceRun), sys[k]? = some x → sys'[k]? = some (x.performAll (commandsOf k cmds)) := by
  induction cmds generalizing sys with
  | nil => exact ⟨sys, rfl, rfl, fun _ _ hx => hx⟩
  | cons c cmds ih =>
    obtain ⟨n, i⟩ := c
    obtain ⟨hn, hcmds⟩ := List.forall_mem_cons.1 hcmds
    have hexec := changeAt_of_getElem? (List.getElem?_eq_getElem hn) (InstanceRun.perform (exec i))
    have hlen := changeAt_length hexec
    obtain ⟨sys', hrest, hlen', hproj⟩ := ih (fun c hc => hlen.symm ▸ hcmds c hc)
    refine ⟨sys', ?_, hlen'.trans hlen, fun k x hx => ?_⟩
    · rw [execInterleaved_cons, execAt, hexec, Option.bind_some, hrest]
    · by_cases hk : k = n
      · subst hk
        rw [hproj k _ (changeAt_same hexec hx), commandsOf_cons_same, InstanceRun.performAll_cons]
      · rw [hproj k x ((changeAt_other hexec hk).trans hx), commandsOf_cons_other hk]

/-- Settles O57: a command changes the run it names alone, and an interleaving is the product of the runs of the
instances. -/
theorem instancesAreIndependent : Obligations.InstancesAreIndependent := by
  refine ⟨fun sys sys' n i h => ?oneCommand, fun sys n m i j hne => ?commute, fun cmds sys hcmds => ?interleaving⟩
  case oneCommand =>
    refine ⟨changeAt_length h, fun k hk => changeAt_other h hk, fun x hx hmark => ?_⟩
    have hn := changeAt_same h hx
    rw [InstanceRun.perform_of_wellFormed _ hmark] at hn
    refine ⟨fun s hs => ?_, fun r hr => ?_⟩
    · rw [hn, hs, InstanceRun.afterAnswer_next]
    · rw [hn, hr, InstanceRun.afterAnswer_refused]
  case commute => exact changeAt_comm hne _ _ sys
  case interleaving =>
    obtain ⟨sys', hexec, hlen, hproj⟩ := execInterleaved_eq hcmds
    refine ⟨sys', hexec, hlen, fun k x hx => ⟨_, hproj k x hx, fun hmark => InstanceRun.performAll_marked hmark _, ?_⟩⟩
    obtain ⟨s, mark⟩ := x
    rintro rfl
    exact ⟨fun s' => InstanceRun.performAll_of_next, fun r => InstanceRun.performAll_of_refused⟩

/-- Settles O48: a reset changes the block it names alone, and there keeps the width, the ciphertext and the mark. -/
theorem resetLeavesParametersAndOtherInstances : Obligations.ResetLeavesParametersAndOtherInstances := by
  intro n sys sys' h
  refine ⟨fun m hm => changeAt_other h hm, ?_⟩
  obtain ⟨⟨⟨W, b⟩, mark⟩, hx, -⟩ := changeAt_eq_some.1 h
  exact ⟨W, b, _, mark, hx, changeAt_same h hx, rfl⟩

end Sys2Proof.Machine
end

section
/-! What one attempt and one sweep of a worker emit (`workerRun_eq`, `emittedBy_eq`), and the statements about the search
(spec/60_exceptions.md R81, R83, R84). -/

namespace Sys2Proof.Machine

/-- What the host reports of the candidate tap value `t`: the value and the plaintext if it is accepted (R28, R81). -/
def candidateReport {w : Nat} (ct : List Byte) (iv : BitVec w) (t : Nat) : Option Report :=
  if (decrypt ct iv (BitVec.ofNat w t)).acc then some ⟨t, (decrypt ct iv (BitVec.ofNat w t)).pt.take ct.length⟩ else none

section

variable {W : Width} {b : Block W.bits} {iv : BitVec W.bits}

/-- One attempt of a worker emits the report of its candidate, counts, and keeps the ciphertext and `INIT` (R81). -/
theorem workerAttempt_eq (hinit : b.init = some iv) {t : Nat} (ht : t < 2 ^ W.bits) (out : List Report) (n : Nat)
    (d : Bool) :
    ∃ b' : Block W.bits, b'.ct = b.ct ∧ b'.init = some iv ∧
      workerAttempt t ⟨⟨W, b⟩, out, n, d⟩ =
        .next ⟨⟨W, b'⟩, out ++ (candidateReport b.ct iv t).toList, n + 1, d⟩ := by
  refine ⟨b.afterTry iv t, rfl, hinit, ?_⟩
  have hacc : (b.afterTry iv t).acc = (decrypt b.ct iv (BitVec.ofNat W.bits t)).acc := rfl
  rw [workerAttempt, execAll_tryCommands hinit ht, andThen_next, candidateReport]
  simp only [hacc, report_afterTry b iv ht]
  split
  case isTrue => rfl
  case isFalse => simp

/-- A sweep emits the reports of its candidates in order, counts them, and sets the completion flag (R81, R84). -/
theorem workerRun_eq (hinit : b.init = some iv) {ts : List Nat} (hts : ∀ t ∈ ts, t < 2 ^ W.bits) (out : List Report)
    (n : Nat) (d : Bool) :
    ∃ s : State, workerRun ts ⟨⟨W, b⟩, out, n, d⟩ =
      .next ⟨s, out ++ ts.filterMap (candidateReport b.ct iv), n + ts.length, true⟩ := by
  induction ts generalizing b out n with
  | nil => exact ⟨⟨W, b⟩, by simp [workerRun]⟩
  | cons t ts ih =>
    obtain ⟨ht, hts⟩ := List.forall_mem_cons.1 hts
    obtain ⟨b', hct, hinit', hattempt⟩ := workerAttempt_eq hinit ht out n d
    obtain ⟨s, hrest⟩ := ih hinit' hts (out ++ (candidateReport b.ct iv t).toList) (n + 1)
    refine ⟨s, ?_⟩
    rw [workerRun, hattempt, andThen_next, hrest, hct]
    cases hreport : candidateReport b.ct iv t <;>
      simp [hreport, Nat.add_comm 1, Nat.add_assoc]

/-- What a worker emits over tap values in range (R81). -/
theorem emittedBy_eq (hinit : b.init = some iv) {ts : List Nat} (hts : ∀ t ∈ ts, t < 2 ^ W.bits) :
    emittedBy ⟨W, b⟩ ts = ts.filterMap (candidateReport b.ct iv) := by
  obtain ⟨s, hrun⟩ := workerRun_eq hinit hts [] 0 false
  rw [emittedBy, Worker.start, hrun, List.nil_append]

end

/-- The tap values of a chunk are tap values of the width (R83). -/
theorem lt_of_mem_chunkTaps {w n i t : Nat} (h : t ∈ chunkTaps w n i) : t < 2 ^ w :=
  ((mem_chunkTaps w).1 h).2.trans_le (min_le_right _ _)

/-- Settles O59: a sweep from a started worker. -/
theorem workerEmitsExactlyTheAcceptedCandidates : Obligations.WorkerEmitsExactlyTheAcceptedCandidates := by
  intro W b iv taps hinit htaps
  obtain ⟨s, hrun⟩ := workerRun_eq hinit htaps [] 0 false
  exact ⟨_, hrun, Nat.zero_add _, rfl, List.nil_append _⟩

/-- Settles O60: each sweep emits the reports of its chunk, and the chunks in order are all the tap values. -/
theorem splitSearchFindsTheSameCandidates : Obligations.SplitSearchFindsTheSameCandidates := by
  rintro W ct iv n blocks b hn rfl hblocks rfl hinit
  have hchunks : (blocks.mapIdx fun i c => emittedBy ⟨W, c⟩ (chunkTaps W.bits blocks.length i)) =
      (List.range blocks.length).map fun i => (chunkTaps W.bits blocks.length i).filterMap (candidateReport b.ct iv) := by
    refine List.ext_getElem (by simp) fun i hi _ => ?_
    rw [List.length_mapIdx] at hi
    obtain ⟨hct, hinit'⟩ := hblocks _ (List.getElem_mem hi)
    rw [List.getElem_mapIdx, List.getElem_map, List.getElem_range, emittedBy_eq hinit' fun t => lt_of_mem_chunkTaps, hct]
  calc (blocks.mapIdx fun i c => emittedBy ⟨W, c⟩ (chunkTaps W.bits blocks.length i)).flatten
    _ = ((List.range blocks.length).flatMap (chunkTaps W.bits blocks.length)).filterMap (candidateReport b.ct iv) := by
      rw [hchunks, List.filterMap_flatMap, List.flatMap_def]
    _ = (List.range (2 ^ W.bits)).filterMap (candidateReport b.ct iv) := by
      rw [flatMap_chunkTaps, chunkStart_count W.bits hn]
    _ = emittedBy ⟨W, b⟩ (List.range (2 ^ W.bits)) := (emittedBy_eq hinit fun _ => List.mem_range.1).symm

end Sys2Proof.Machine
end
